-- ==== Sys2Proof/Word.lean ====
section
/-! DEFINITION. The word types of the block (R11, R22): a byte is 8 bits, a word 16, a decoded value 32. -/

namespace Sys2Proof

/-- A byte: an element of FB or TB, an 8-bit register, a command code (R11). -/
abbrev Byte := BitVec 8

/-- A word: a 16-bit register, an element of WB, a checksum (R11). -/
abbrev Word := BitVec 16

/-- A 32-bit value: RES_VAL, the widest register (R22). -/
abbrev DWord := BitVec 32

end Sys2Proof
end

