-- ==== Sys2Proof/Config.lean ====
section
/-! DEFINITION. The parameters the spec fixes (R2, R3, R8, R9). Nothing is left to an implementation: HOST_MAP is not
needed by a model that accesses registers by name (R10, R55; log 6), and no instruction leaves a value open, so there is
no free value here. -/

namespace Sys2Proof.Config

/-- FB_SIZE (R9, R33): FB's bytes have the indices 0–259. -/
abbrev fbSize : Nat := 260

/-- WB_SIZE (R9, R34): WB's words have the indices 0–126. -/
abbrev wbSize : Nat := 127

/-- TB_SIZE (R9, R35): TB's bytes have the indices 0–249. -/
abbrev tbSize : Nat := 250

/-- The largest value WCNT takes (R22, R26). -/
abbrev wcntMax : Nat := 127

/-- The read limit of one request and the largest word count of a definition (R8). -/
abbrev maxRegisterCount : Nat := 125

/-- The checksum's initial value (R2, R101). -/
abbrev crcInit : Word := 0xFFFF

/-- The checksum's reflected polynomial constant (R2, R100). -/
abbrev crcPoly : Word := 0xA001

/-- The function code of every request, "read holding registers" (R3, R130). -/
abbrev readHoldingRegisters : Byte := 0x03

/-- The bit an exception response sets in the function code (R84). -/
abbrev exceptionBit : Byte := 0x80

end Sys2Proof.Config
end

