-- ==== Sys2Proof/Machine/HostInterface.lean ====
section
/-! DEFINITION. What the outside world can do to the block: the host's accesses, by register name and buffer index (R55,
R56, R74), and the platform's reset (R240). -/

namespace Sys2Proof.Machine

/-- The registers of R22's table. CMD is write-only and holds nothing; a write of it issues a command (R70). -/
inductive Reg where
  | cmd
  | opData
  | opSlave
  | opFc
  | opAddr
  | opCount
  | opLen
  | defReg
  | wcnt
  | status
  | acc
  | resCrc
  | resValid
  | excCode
  | resBc
  | resVal
  | resScale
  | resTlen
  deriving DecidableEq, Repr

/-- The three buffers (R33, R34, R35). -/
inductive Buffer where
  | fb
  | wb
  | tb
  deriving DecidableEq, Repr

/-- One host access (R74), and the accesses R56 names only to refuse them. A register write carries its value in 32 bits, the
widest register; a value above the register's width is no access of the interface (D35; log 7). -/
inductive Access where
  /-- `rd R`. -/
  | rd (r : Reg)
  /-- `wr R, v`; `cmd NAME` is `wr CMD, code(NAME)`. -/
  | wr (r : Reg) (v : DWord)
  /-- `rdb FB[i]`. -/
  | rdb (i : Nat)
  /-- `wrb FB[i], v`. -/
  | wrb (i : Nat) (v : Byte)
  /-- `rdw WB[i]`. -/
  | rdw (i : Nat)
  /-- `wrw WB[i], v`. -/
  | wrw (i : Nat) (v : Word)
  /-- `rdt TB[i]`. -/
  | rdt (i : Nat)
  /-- A write to TB, which R56 refuses. -/
  | wrt (i : Nat) (v : Byte)
  /-- A byte-wide read of WB, which R56 refuses. -/
  | rdwByte (i : Nat)
  /-- A byte-wide write to WB, which R56 refuses. -/
  | wrwByte (i : Nat) (v : Byte)
  deriving DecidableEq, Repr

/-- One input of the block: an access of the host (R15), or the reset the platform asserts (R240). -/
inductive Input where
  | access (a : Access)
  | reset
  deriving DecidableEq, Repr

end Sys2Proof.Machine
end

