-- ==== Sys2Proof/Syntax.lean ====
section
/-! DEFINITION. The commands of the block: one constructor for each row of spec/opcode_table.json (R71). A command has no
operand field: its operands are the registers and buffers as they stand when CMD is written (R13, R88). -/

namespace Sys2Proof

/-- The eight commands (R71). -/
inductive Instr where
  /-- CRC_INIT, code 0x01 (R102). -/
  | crcInit
  /-- CRC_UPDATE, code 0x02 (R103). -/
  | crcUpdate
  /-- CRC_COMPUTE, code 0x03 (R105). -/
  | crcCompute
  /-- CRC_APPEND, code 0x04 (R106). -/
  | crcAppend
  /-- CRC_VALIDATE, code 0x05 (R108). -/
  | crcValidate
  /-- BUILD_READ, code 0x10 (R131). -/
  | buildRead
  /-- PARSE, code 0x20 (R150). -/
  | parse
  /-- DECODE, code 0x30 (R180). -/
  | decode
  deriving DecidableEq, Repr

end Sys2Proof
end

