-- ==== Sys2Proof/WellFormed.lean ====
section
/-! DEFINITION. What is well formed. A command has no operand, so every command is. The terms that can be ill formed are the
host's accesses: these checks say, from R22, R56 and D35, which accesses have a meaning. The machine's own refusals
(Machine/HostAccess.lean) are written apart from them. -/

namespace Sys2Proof

/-- Every command is well formed: its encoding is a code with no field (R71, R88). -/
def Instr.wf : Instr → Bool
  | .crcInit => true
  | .crcUpdate => true
  | .crcCompute => true
  | .crcAppend => true
  | .crcValidate => true
  | .buildRead => true
  | .parse => true
  | .decode => true

namespace Machine

/-- The largest value a host write of a register may carry (R22, R23, R26, D35); `none` for a register it may not write. -/
def Reg.writeLimit : Reg → Option Nat
  | .cmd => some 0xFF
  | .opData => some 0xFF
  | .opSlave => some 0xFF
  | .opFc => some 0xFF
  | .opAddr => some 0xFFFF
  | .opCount => some 0xFFFF
  | .opLen => some 0xFFFF
  | .defReg => some 0xFFFF
  | .wcnt => some Config.wcntMax
  | .status => none
  | .acc => none
  | .resCrc => none
  | .resValid => none
  | .excCode => none
  | .resBc => none
  | .resVal => none
  | .resScale => none
  | .resTlen => none

/-- The accesses that have a meaning (R56). -/
def Access.wf : Access → Bool
  | .rd r => r != .cmd
  | .wr r v => r.writeLimit.any (fun limit => v.toNat ≤ limit)
  | .rdb i => i < Config.fbSize
  | .wrb i _ => i < Config.fbSize
  | .rdw i => i < Config.wbSize
  | .wrw i _ => i < Config.wbSize
  | .rdt i => i < Config.tbSize
  | .wrt _ _ => false
  | .rdwByte _ => false
  | .wrwByte _ _ => false

end Machine

end Sys2Proof
end

