-- ==== Sys2Proof/Decode.lean ====
section
/-! DEFINITION. From bytes to commands and back (R70–R72). One command is one byte written to CMD (R88), so the decoder
reads one byte of a byte sequence and hands back the rest. -/

namespace Sys2Proof

/-- A row of the opcode table: the bits the row fixes, their values, and the command. -/
structure OpcodeRow where
  mask    : Byte
  pattern : Byte
  instr   : Instr
  deriving DecidableEq, Repr

/-- Why bytes are no command. -/
inductive DecodeError where
  /-- There is no byte to read. -/
  | noByte
  /-- The code is none of R71's: an illegal command, reported by the block in STATUS (R72, R213). -/
  | illegalCommand (code : Byte)
  deriving DecidableEq, Repr

/-- spec/opcode_table.json, row by row (R71). -/
def opcodeTable : List OpcodeRow :=
  [ ⟨0xFF, 0x01, .crcInit⟩,
    ⟨0xFF, 0x02, .crcUpdate⟩,
    ⟨0xFF, 0x03, .crcCompute⟩,
    ⟨0xFF, 0x04, .crcAppend⟩,
    ⟨0xFF, 0x05, .crcValidate⟩,
    ⟨0xFF, 0x10, .buildRead⟩,
    ⟨0xFF, 0x20, .parse⟩,
    ⟨0xFF, 0x30, .decode⟩ ]

/-- Whether a command code falls under a row. -/
def OpcodeRow.covers (row : OpcodeRow) (code : Byte) : Bool := code &&& row.mask == row.pattern

/-- The command a code stands for, if any (R71). -/
def decodeCode (code : Byte) : Option Instr := (opcodeTable.find? (·.covers code)).map (·.instr)

/-- Reads one command from the front of a byte sequence; the second component is what follows it. Total: bytes that are no
command are rejected by name. -/
def decode : List Byte → Except DecodeError (Instr × List Byte)
  | [] => .error .noByte
  | code :: rest =>
    match decodeCode code with
    | some i => .ok (i, rest)
    | none => .error (.illegalCommand code)

/-- The code the host writes to CMD to issue a command (R71). -/
def Instr.code : Instr → Byte
  | .crcInit => 0x01
  | .crcUpdate => 0x02
  | .crcCompute => 0x03
  | .crcAppend => 0x04
  | .crcValidate => 0x05
  | .buildRead => 0x10
  | .parse => 0x20
  | .decode => 0x30

/-- The bytes of a command: its code and nothing else (R88). -/
def encode (i : Instr) : List Byte := [i.code]

/-- The byte of an instruction whose bits are `w`, of which the table gives `nbits`; bits above `nbits` are 0. -/
def tableByte (nbits w : Nat) : Byte := BitVec.ofNat 8 (w % 2 ^ nbits)

/-- What the decoder reads from an instruction's bits as spec/opcode_table.json numbers them. -/
def decodeTableWord (nbits w : Nat) : Option Instr :=
  match decode [tableByte nbits w] with
  | .ok (i, _) => some i
  | .error _ => none

end Sys2Proof
end

