-- ==== Sys2Proof/Machine/Memory.lean ====
section
/-! DEFINITION. A buffer as plain data, in one canonical form: a list of index and element, the indices strictly rising. An
index with no entry is an element nothing has written since reset: it has no value, and a read of it is the caller's fault to
raise (R36, R37, R38). -/

namespace Sys2Proof.Machine

/-- A buffer of elements of `w` bits. `Memory 8` is a list of `Host.Cell`. -/
abbrev Memory (w : Nat) := List (Nat × BitVec w)

/-- The element at an index; `none` if nothing has written it since reset (R38). -/
def Memory.read {w : Nat} : Memory w → Nat → Option (BitVec w)
  | [], _ => none
  | (j, b) :: rest, i => if i = j then some b else Memory.read rest i

/-- Writes one element, keeping the list in its canonical form. -/
def Memory.write {w : Nat} : Memory w → Nat → BitVec w → Memory w
  | [], i, v => [(i, v)]
  | (j, b) :: rest, i, v =>
    if i < j then (i, v) :: (j, b) :: rest
    else if i = j then (i, v) :: rest
    else (j, b) :: Memory.write rest i v

/-- Writes consecutive elements from index `start` on. -/
def Memory.writeList {w : Nat} (m : Memory w) (start : Nat) : List (BitVec w) → Memory w
  | [] => m
  | v :: vs => Memory.writeList (m.write start v) (start + 1) vs

/-- Reads `n` consecutive elements from index `start` on, or answers the first index among them that nothing has written. -/
def Memory.readRange {w : Nat} (m : Memory w) : Nat → Nat → Except Nat (List (BitVec w))
  | _, 0 => .ok []
  | start, n + 1 =>
    match m.read start with
    | none => .error start
    | some v =>
      match Memory.readRange m (start + 1) n with
      | .ok vs => .ok (v :: vs)
      | .error i => .error i

/-- The canonical form: the indices rise strictly, so that equal buffers are equal lists. -/
def Memory.wf {w : Nat} : Memory w → Bool
  | [] => true
  | [_] => true
  | (i, _) :: (j, b) :: rest => decide (i < j) && Memory.wf ((j, b) :: rest)

/-- Every entry lies in a buffer of `size` elements (R50). -/
def Memory.inBounds {w : Nat} (m : Memory w) (size : Nat) : Bool := m.all (fun cell => cell.1 < size)

end Sys2Proof.Machine
end

