-- ==== Sys2Proof/Machine/State.lean ====
section
/-! DEFINITION. The block's whole state (R38) as plain data, the reasons a step can stop (R224), and the state after reset
(R22, R241). -/

namespace Sys2Proof.Machine

/-- Why the machine stops with a fault (R224). -/
inductive Fault where
  /-- A command or a host read reads a buffer element that nothing has written since reset (R36, R37). Raised by CRC_COMPUTE,
  CRC_APPEND, CRC_VALIDATE, PARSE, DECODE and the host's buffer reads. `index` is the lowest such element of the range that is
  read (log 5). Safe: the hardware goes on with an unspecified value, the model does not go on. -/
  | unwrittenRead (buffer : Buffer) (index : Nat)
  deriving DecidableEq, Repr

/-- Why the model gives an input no meaning (R56, R224). Each is safe: the hardware does something, the model does not go on. -/
inductive Refusal where
  /-- No meaning written yet for an instruction. Raised by no arm of `exec` as it stands. Safe. -/
  | notModelled (mnemonic : String)
  /-- A host access with a buffer index outside the buffer (R56). Safe. -/
  | bufferIndexOutOfRange (buffer : Buffer) (index : Nat)
  /-- A host write of a register it may only read (R22, R56). Safe. -/
  | writeOfReadOnlyRegister (r : Reg)
  /-- A host read of CMD, which is write-only (R22, R56). Safe. -/
  | readOfCmd
  /-- A host write to TB (R53, R56). Safe. -/
  | writeOfTextBuffer (index : Nat)
  /-- A host write of a value above 127 to WCNT (R26, R56). Safe. -/
  | wcntAboveLimit (v : DWord)
  /-- A byte-wide host access to WB (R52, R56). Safe. -/
  | byteAccessToWordBuffer (index : Nat)
  /-- A host write of a value wider than the register, which D35 says cannot be written (log 7). Safe. -/
  | valueWiderThanRegister (r : Reg) (v : DWord)
  deriving DecidableEq, Repr

/-- The state: the registers and buffers of R38, and the two lists that stand for the host (R15, R21). -/
structure State where
  /-- OP_DATA: one input byte of the checksum (R22). -/
  opData   : Byte
  /-- OP_SLAVE: the slave id of a request, or the expected one of a response (R22, R24). -/
  opSlave  : Byte
  /-- OP_FC: the expected function code (R22). -/
  opFc     : Byte
  /-- OP_ADDR: the register address of a request (R22, R24). -/
  opAddr   : Word
  /-- OP_COUNT: the register count of a request (R22, R24). -/
  opCount  : Word
  /-- OP_LEN: the length of the byte sequence in FB (R22). -/
  opLen    : Word
  /-- DEF: a RegisterDefinition, laid out as in R76; it reads back as written, reserved bits too (R79). -/
  defReg   : Word
  /-- WCNT: the number of valid words in WB, 0–127 (R22, R26; log 9). -/
  wcnt     : Byte
  /-- STATUS: the outcome code of the last command (R27, R80). -/
  status   : Byte
  /-- ACC: the streaming checksum accumulator (R32). -/
  acc      : Word
  /-- RES_CRC: the last checksum a command computed (R22, D33). -/
  resCrc   : Word
  /-- RES_VALID: the result of CRC_VALIDATE (R28). -/
  resValid : Bool
  /-- EXC_CODE: the exception code of the last exception response PARSE examined (R29). -/
  excCode  : Byte
  /-- RES_BC: the byte count of the last success response PARSE examined (R30). -/
  resBc    : Byte
  /-- RES_VAL: the decoded value (R31). -/
  resVal   : DWord
  /-- RES_SCALE: the divisor of an unsigned-scaled value (R31). -/
  resScale : Byte
  /-- RES_TLEN: the length of the decoded string in TB (R31). -/
  resTlen  : Byte
  /-- FB, the frame buffer: 260 bytes (R33). -/
  fb       : Memory 8
  /-- WB, the word buffer: 127 words (R34). -/
  wb       : Memory 16
  /-- TB, the text buffer: 250 bytes (R35). -/
  tb       : Memory 8
  /-- The model's own: the inputs the host and the platform still bring, the next one first (R15, R21, R58; log 1). -/
  pending  : List Input
  /-- The model's own: the values the host's reads were given, oldest first, each zero-extended to 32 bits (R57; log 3). -/
  returned : List DWord
  deriving DecidableEq, Repr

/-- The machine right after reset (R22's reset values, R241). Every buffer element is unwritten; no input is pending and
nothing has been read (log 1, log 3). -/
def State.reset : State where
  opData   := 0x00
  opSlave  := 0x00
  opFc     := 0x00
  opAddr   := 0x0000
  opCount  := 0x0000
  opLen    := 0x0000
  defReg   := 0x0000
  wcnt     := 0
  status   := 0x00
  acc      := 0xFFFF
  resCrc   := 0x0000
  resValid := false
  excCode  := 0x00
  resBc    := 0x00
  resVal   := 0x00000000
  resScale := 0x01
  resTlen  := 0x00
  fb       := []
  wb       := []
  tb       := []
  pending  := []
  returned := []

end Sys2Proof.Machine
end

