-- ==== Sys2Proof/Machine/Flags.lean ====
section
/-! DEFINITION. The block's condition codes: STATUS, its only condition code (R27, R80), and the one-bit RES_VALID, which is
the comparison of a frame's trailer with a checksum (R28, R87). -/

namespace Sys2Proof.Machine

/-- The outcomes of a command (R80). `TransportTimeout`, code 0x02, is not among them: the block never produces it (R214). -/
inductive Status where
  | ok
  | invalidArgument
  | frameTooShort
  | frameTooLong
  | slaveIdMismatch
  | functionCodeMismatch
  | crcMismatch
  | deviceException
  | insufficientWords
  | unsupportedEncoding
  | oddByteCount
  | illegalCommand
  deriving DecidableEq, Repr

/-- The code of an outcome (R80). -/
def Status.code : Status → Byte
  | .ok => 0x00
  | .invalidArgument => 0x01
  | .frameTooShort => 0x03
  | .frameTooLong => 0x04
  | .slaveIdMismatch => 0x05
  | .functionCodeMismatch => 0x06
  | .crcMismatch => 0x07
  | .deviceException => 0x08
  | .insufficientWords => 0x09
  | .unsupportedEncoding => 0x0A
  | .oddByteCount => 0x0B
  | .illegalCommand => 0x0C

/-- The high byte of a word, `w[15:8]` (R11). -/
def hiByte (w : Word) : Byte := w.extractLsb' 8 8

/-- The low byte of a word, `w[7:0]` (R11). -/
def loByte (w : Word) : Byte := w.extractLsb' 0 8

/-- The word `{hi, lo} = hi * 256 + lo` (R11). -/
def joinBytes (hi lo : Byte) : Word := hi ++ lo

/-- Byte `i` of a byte sequence. Every use stands behind a check that the sequence is longer than `i`, so the 0 is never
read. -/
def byteAt (raw : List Byte) (i : Nat) : Byte := raw.getD i 0

/-- Word `i` of a word sequence, under the same convention as `byteAt`. -/
def wordAt (words : List Word) (i : Nat) : Word := words.getD i 0

/-- The checksum a frame carries when its trailer begins at byte `i`: low byte first (R54, R87). -/
def trailerAt (raw : List Byte) (i : Nat) : Word := joinBytes (byteAt raw (i + 1)) (byteAt raw i)

/-- Whether a computed checksum equals the trailer at byte `i`; all 16 bits are compared (R87, R108). -/
def trailerMatches (c : Word) (raw : List Byte) (i : Nat) : Bool := c == trailerAt raw i

end Sys2Proof.Machine
end

