-- ==== Sys2Proof/Machine/Ops.lean ====
section
/-! DEFINITION. The operations the commands and the host's accesses share: ending a command with a status, which on this
block takes the place of taking an exception (R210, R219), fetching the range a command reads, and the checksum (R100, R101). -/

namespace Sys2Proof.Machine

/-- The outcome of a step or a command. -/
abbrev Result := Host.Outcome State Fault Refusal

/-- STATUS takes an outcome's code (R27, R80). -/
def State.setStatus (s : State) (st : Status) : State := { s with status := st.code }

/-- `finish(S)`: STATUS takes the code and the command ends (R12, R210). Every command ends here, on success and on failure
alike: no trap, no mode, no saved state (R219), and nothing to return from (R220). -/
def finish (st : Status) (s : State) : Result := .next (s.setStatus st)

/-- The fault of reading an element nothing has written (R37). -/
def unwritten (b : Buffer) (i : Nat) : Result := .fault (.unwrittenRead b i)

/-- Runs a command's remainder on the bytes `FB[0..n)`, or faults if one of them is unwritten; nothing is written then (R37). -/
def withFrame (n : Nat) (s : State) (go : List Byte → Result) : Result :=
  match s.fb.readRange 0 n with
  | .ok raw => go raw
  | .error i => unwritten .fb i

/-- Runs a command's remainder on the words `WB[0..n)`, or faults if one of them is unwritten (R37). -/
def withWords (n : Nat) (s : State) (go : List Word → Result) : Result :=
  match s.wb.readRange 0 n with
  | .ok words => go words
  | .error i => unwritten .wb i

/-- One of `crc_step`'s eight iterations: shift right by one, and fold the constant in when the bit shifted out was 1 (R100). -/
def crcShift (acc : Word) : Word :=
  if acc.getLsbD 0 then (acc >>> 1) ^^^ Config.crcPoly else acc >>> 1

/-- `n` iterations of `crcShift`. -/
def crcShifts : Nat → Word → Word
  | 0, acc => acc
  | n + 1, acc => crcShifts n (crcShift acc)

/-- `crc_step`: the byte goes into bits 7:0, then eight iterations (R100). -/
def crcStep (acc : Word) (b : Byte) : Word := crcShifts 8 (acc ^^^ b.setWidth 16)

/-- `crc16`: from 0xFFFF, one step per byte in sequence order, nothing after (R101). -/
def crc16 (bytes : List Byte) : Word := bytes.foldl crcStep Config.crcInit

/-- A checksum as it is sent: low byte first (R54, R106). -/
def crcTrailer (c : Word) : List Byte := [loByte c, hiByte c]

/-- The block after a reset asserted during a run: every register and buffer as after power-on (R240, R241). What the host has
read and what it still brings is not the block's (log 4). -/
def State.resetBlock (s : State) : State := { State.reset with pending := s.pending, returned := s.returned }

/-- A read's value goes to the host, zero-extended to 32 bits; nothing of the block changes (R57; log 3). -/
def State.deliver (s : State) (v : DWord) : State := { s with returned := s.returned ++ [v] }

end Sys2Proof.Machine
end

