-- ==== Sys2Proof/Machine/Operands.lean ====
section
/-! DEFINITION. The operand forms: OP_LEN as a length, the fields of DEF (R76–R79), the kinds of definition with the words each
needs (R77, R184), and the function codes PARSE compares with (R84). -/

namespace Sys2Proof.Machine

/-- `n <- OP_LEN` (R105, R106, R108, R150). -/
def State.frameLen (s : State) : Nat := s.opLen.toNat

/-- DEF's KIND, bits 2:0 (R76). -/
def defKind (d : Word) : BitVec 3 := d.extractLsb' 0 3

/-- DEF's BSEL, bit 3: true selects the high byte (R76). -/
def defBsel (d : Word) : Bool := d.getLsbD 3

/-- DEF's SCALE, bits 5:4 (R76). -/
def defScale (d : Word) : BitVec 2 := d.extractLsb' 4 2

/-- DEF's RSVD0, bits 7:6 (R76). -/
def defRsvd0 (d : Word) : BitVec 2 := d.extractLsb' 6 2

/-- DEF's WC, bits 14:8 (R76). -/
def defWc (d : Word) : BitVec 7 := d.extractLsb' 8 7

/-- DEF's RSVD1, bit 15 (R76). -/
def defRsvd1 (d : Word) : Bool := d.getLsbD 15

/-- The five encoding kinds (R77). -/
inductive Kind where
  | unsignedScaled
  | signedMagnitudeByte
  | wideUnsigned
  | packedAscii
  | packedVersion
  deriving DecidableEq, Repr

/-- The kind a KIND value names; 5, 6 and 7 name none (R77). -/
def kindOf (k : BitVec 3) : Option Kind :=
  match k.toNat with
  | 0 => some .unsignedScaled
  | 1 => some .signedMagnitudeByte
  | 2 => some .wideUnsigned
  | 3 => some .packedAscii
  | 4 => some .packedVersion
  | _ => none

/-- `need(k)`: the words a kind needs; packed-ASCII takes whatever WC says (R184). -/
def need (wc : Nat) : Kind → Nat
  | .unsignedScaled => 1
  | .signedMagnitudeByte => 1
  | .wideUnsigned => 2
  | .packedAscii => wc
  | .packedVersion => 2

/-- The divisor a SCALE code names; 3 is reserved (R78). -/
def divisorOf (scale : BitVec 2) : Option Byte :=
  match scale.toNat with
  | 0 => some 1
  | 1 => some 10
  | 2 => some 100
  | _ => none

/-- The function code of an exception response to an expected function code: `OP_FC or 0x80` (R84). -/
def exceptionCodeOf (fc : Byte) : Byte := fc ||| Config.exceptionBit

end Sys2Proof.Machine
end

