-- ==== Sys2Proof/Machine/Checksum.lean ====
section
/-! DEFINITION. The Checksum Engine's five commands (40_crc.md). ACC is written by the two streaming commands only; the others
compute over an accumulator of their own (R32). -/

namespace Sys2Proof.Machine

/-- CRC_INIT (R102). -/
def execCrcInit (s : State) : Result := finish .ok { s with acc := Config.crcInit }

/-- CRC_UPDATE (R103). -/
def execCrcUpdate (s : State) : Result := finish .ok { s with acc := crcStep s.acc s.opData }

/-- CRC_COMPUTE (R105). -/
def execCrcCompute (s : State) : Result :=
  if s.frameLen > Config.fbSize then finish .invalidArgument s
  else withFrame s.frameLen s fun raw => finish .ok { s with resCrc := crc16 raw }

/-- CRC_APPEND (R106): the trailer goes to FB[n] and FB[n+1], low byte first; OP_LEN is not changed. -/
def execCrcAppend (s : State) : Result :=
  if s.frameLen > Config.fbSize - 2 then finish .invalidArgument s
  else withFrame s.frameLen s fun raw =>
    finish .ok { s with
      fb := s.fb.writeList s.frameLen (crcTrailer (crc16 raw))
      resCrc := crc16 raw }

/-- CRC_VALIDATE (R108). Fewer than two bytes hold no trailer: RES_VALID is 0, RES_CRC is not written and FB is not read
(R109). -/
def execCrcValidate (s : State) : Result :=
  if s.frameLen > Config.fbSize then finish .invalidArgument s
  else if s.frameLen < 2 then finish .ok { s with resValid := false }
  else withFrame s.frameLen s fun raw =>
    let c := crc16 (raw.take (s.frameLen - 2))
    finish .ok { s with resCrc := c, resValid := trailerMatches c raw (s.frameLen - 2) }

end Sys2Proof.Machine
end

