-- ==== Sys2Proof/Machine/FrameBuilder.lean ====
section
/-! DEFINITION. The Frame Builder's command (41_frame_builder.md). -/

namespace Sys2Proof.Machine

/-- The six bytes of a read request before its trailer (R81, R85, R131): address and count high byte first. -/
def requestBody (slave : Byte) (addr count : Word) : List Byte :=
  [slave, Config.readHoldingRegisters, hiByte addr, loByte addr, hiByte count, loByte count]

/-- BUILD_READ (R131). The counts 0 and 126–65535 fail, and only STATUS is written then (R132). -/
def execBuildRead (s : State) : Result :=
  if s.opCount.toNat = 0 ∨ s.opCount.toNat > Config.maxRegisterCount then finish .invalidArgument s
  else
    let body := requestBody s.opSlave s.opAddr s.opCount
    finish .ok { s with
      fb := s.fb.writeList 0 (body ++ crcTrailer (crc16 body))
      resCrc := crc16 body }

end Sys2Proof.Machine
end

