-- ==== Sys2Proof/Machine/Parser.lean ====
section
/-! DEFINITION. The Response Parser's command (42_response_parser.md). The checks run over the raw bytes as a function of them
and the two expected values; PARSE then records what that function reports. -/

namespace Sys2Proof.Machine

/-- What the checks report: the status, the registers that were written before the deciding check (R150), and the payload
words, which only OK has. -/
structure ParseReport where
  status  : Status
  excCode : Option Byte := none
  resBc   : Option Byte := none
  resCrc  : Option Word := none
  words   : List Word := []
  deriving DecidableEq, Repr

/-- The payload of `2 * k` bytes that begins at byte `i`, as `k` words, high byte first (R86, R157). -/
def payloadWords (raw : List Byte) (i : Nat) : Nat → List Word
  | 0 => []
  | k + 1 => joinBytes (byteAt raw i) (byteAt raw (i + 1)) :: payloadWords raw (i + 2) k

/-- Step 3, an exception response (R153): the code is extracted first, then the length and the trailer are checked. -/
def parseException (raw : List Byte) : ParseReport :=
  let code := byteAt raw 2
  if raw.length ≠ 5 then { status := .frameTooLong, excCode := some code }
  else
    let c := crc16 (raw.take 3)
    if trailerMatches c raw 3 then { status := .deviceException, excCode := some code, resCrc := some c }
    else { status := .crcMismatch, excCode := some code, resCrc := some c }

/-- Steps 5 to 7, a success response (R155, R156, R157). -/
def parseSuccess (raw : List Byte) : ParseReport :=
  let bc := byteAt raw 2
  let n := raw.length
  if n < 3 + bc.toNat + 2 then { status := .frameTooShort, resBc := some bc }
  else if n > 3 + bc.toNat + 2 then { status := .frameTooLong, resBc := some bc }
  else
    let c := crc16 (raw.take (3 + bc.toNat))
    if !trailerMatches c raw (3 + bc.toNat) then { status := .crcMismatch, resBc := some bc, resCrc := some c }
    else if bc.toNat % 2 = 1 then { status := .oddByteCount, resBc := some bc, resCrc := some c }
    else { status := .ok, resBc := some bc, resCrc := some c, words := payloadWords raw 3 (bc.toNat / 2) }

/-- Steps 1 to 7 on the raw bytes, in order; the first check that fails decides (R150–R157, R215). -/
def parseFrame (slave fc : Byte) (raw : List Byte) : ParseReport :=
  if raw.length < 5 then { status := .frameTooShort }
  else if byteAt raw 0 ≠ slave then { status := .slaveIdMismatch }
  else if byteAt raw 1 = exceptionCodeOf fc then parseException raw
  else if byteAt raw 1 ≠ fc then { status := .functionCodeMismatch }
  else parseSuccess raw

/-- Records a report. WCNT is the number of words, so 0 on every failure, and a failure leaves WB as it was (R157, R158). -/
def recordReport (r : ParseReport) (s : State) : Result :=
  finish r.status { s with
    excCode := r.excCode.getD s.excCode
    resBc := r.resBc.getD s.resBc
    resCrc := r.resCrc.getD s.resCrc
    wb := s.wb.writeList 0 r.words
    wcnt := BitVec.ofNat 8 r.words.length }

/-- PARSE (R150): step 0 checks OP_LEN before FB is read (R151; log 8). -/
def execParse (s : State) : Result :=
  if s.frameLen > Config.fbSize then finish .invalidArgument { s with wcnt := 0 }
  else withFrame s.frameLen s fun raw => recordReport (parseFrame s.opSlave s.opFc raw) s

end Sys2Proof.Machine
end

