-- ==== Sys2Proof/Machine/RegisterDecoder.lean ====
section
/-! DEFINITION. The Register Decoder's command (43_register_decoder.md). -/

namespace Sys2Proof.Machine

/-- A successful decoding (R185–R193): the value, the divisor, and the text, empty for the numeric kinds. -/
structure Decoded where
  val   : DWord
  scale : Byte := 1
  text  : List Byte := []
  deriving DecidableEq, Repr

/-- The divisor of a supported SCALE code (R78). The reserved code is rejected before any use (R181), so the 1 that stands for it
is never read. -/
def divisor (scale : BitVec 2) : Byte := (divisorOf scale).getD 1

/-- unsigned-scaled (R185): the pair is the exact quotient; nothing is rounded (R186). -/
def unsignedScaled (scale : BitVec 2) (w : Word) : Decoded := { val := w.setWidth 32, scale := divisor scale }

/-- The value of a signed-magnitude byte: bit 7 is the sign, bits 6:0 the magnitude; no negative zero (R187, R188). -/
def signedMagnitude (b : Byte) : DWord :=
  let mag : DWord := (b.extractLsb' 0 7).setWidth 32
  if b.getLsbD 7 then -mag else mag

/-- signed-magnitude-byte (R187): BSEL chooses the byte, SCALE is ignored. -/
def signedMagnitudeByte (bsel : Bool) (w : Word) : Decoded :=
  { val := signedMagnitude (if bsel then hiByte w else loByte w) }

/-- wide-unsigned-multiword (R189): the first word is the high half. -/
def wideUnsigned (w0 w1 : Word) : Decoded := { val := (w0.setWidth 32 <<< 16) ||| w1.setWidth 32 }

/-- packed-ASCII's text (R190): two bytes a word, high byte first, copied as they are (R191). -/
def asciiText : List Word → List Byte
  | [] => []
  | w :: ws => hiByte w :: loByte w :: asciiText ws

/-- packed-ASCII (R190). -/
def packedAscii (words : List Word) : Decoded := { val := 0, text := asciiText words }

/-- The ASCII digit of a number below 10 (R193). -/
def asciiDigit (d : Nat) : Byte := BitVec.ofNat 8 (0x30 + d)

/-- `dec(x)`: the decimal numeral of a byte, no leading zeros (R193; log 11). -/
def dec (x : Byte) : List Byte :=
  let n := x.toNat
  if n < 10 then [asciiDigit n]
  else if n < 100 then [asciiDigit (n / 10), asciiDigit (n % 10)]
  else [asciiDigit (n / 100), asciiDigit (n / 10 % 10), asciiDigit (n % 10)]

/-- packed-version's text: "V", and the three numerals with "." between them (R192). -/
def versionText (major minor patch : Byte) : List Byte :=
  [0x56] ++ dec major ++ [0x2E] ++ dec minor ++ [0x2E] ++ dec patch

/-- packed-version (R192): the high byte of the first word is ignored. -/
def packedVersion (w0 w1 : Word) : Decoded :=
  let major := loByte w0
  let minor := hiByte w1
  let patch := loByte w1
  { val := (major.setWidth 32 <<< 16) ||| (minor.setWidth 32 <<< 8) ||| patch.setWidth 32
    text := versionText major minor patch }

/-- The value of the words under a kind (R180). -/
def decodeKind (d : Word) (words : List Word) : Kind → Decoded
  | .unsignedScaled => unsignedScaled (defScale d) (wordAt words 0)
  | .signedMagnitudeByte => signedMagnitudeByte (defBsel d) (wordAt words 0)
  | .wideUnsigned => wideUnsigned (wordAt words 0) (wordAt words 1)
  | .packedAscii => packedAscii words
  | .packedVersion => packedVersion (wordAt words 0) (wordAt words 1)

/-- The checks of a definition that names a supported kind, and of the words there are for it, in R216's order (R181, R182,
R183). -/
def definitionFailure (d : Word) (wcnt : Byte) (k : Kind) : Option Status :=
  if k = .unsignedScaled ∧ divisorOf (defScale d) = none then some .unsupportedEncoding
  else if defRsvd0 d ≠ 0 ∨ defRsvd1 d = true then some .invalidArgument
  else if (defWc d).toNat = 0 ∨ (defWc d).toNat > Config.maxRegisterCount then some .invalidArgument
  else if (defWc d).toNat ≠ need (defWc d).toNat k then some .invalidArgument
  else if wcnt.toNat < (defWc d).toNat then some .insufficientWords
  else none

/-- Records a decoding: all three result registers, and TB from index 0 for the kinds with a text (R180, R185–R192). The numeric
kinds have the empty text: RES_TLEN is 0 and TB is left as it was. -/
def recordDecoded (v : Decoded) (s : State) : Result :=
  finish .ok { s with
    resVal := v.val
    resScale := v.scale
    resTlen := BitVec.ofNat 8 v.text.length
    tb := s.tb.writeList 0 v.text }

/-- DECODE (R180). A failure writes only STATUS (R195); the words are read only once every check has passed (R37). -/
def execDecode (s : State) : Result :=
  match kindOf (defKind s.defReg) with
  | none => finish .unsupportedEncoding s
  | some k =>
    match definitionFailure s.defReg s.wcnt k with
    | some failure => finish failure s
    | none => withWords (defWc s.defReg).toNat s fun words => recordDecoded (decodeKind s.defReg words k) s

end Sys2Proof.Machine
end

