-- ==== Sys2Proof/Machine/Dispatch.lean ====
section
/-! DEFINITION. From a command to its meaning (R71). -/

namespace Sys2Proof.Machine

/-- Executes one command atomically on the registers and buffers as they stand (R13, R70). -/
def exec (i : Instr) (s : State) : Host.Outcome State Fault Refusal :=
  match i with
  | .crcInit => Sys2Proof.Machine.execCrcInit s
  | .crcUpdate => Sys2Proof.Machine.execCrcUpdate s
  | .crcCompute => Sys2Proof.Machine.execCrcCompute s
  | .crcAppend => Sys2Proof.Machine.execCrcAppend s
  | .crcValidate => Sys2Proof.Machine.execCrcValidate s
  | .buildRead => Sys2Proof.Machine.execBuildRead s
  | .parse => Sys2Proof.Machine.execParse s
  | .decode => Sys2Proof.Machine.execDecode s

end Sys2Proof.Machine
end

