-- ==== Sys2Proof/Machine/HostAccess.lean ====
section
/-! DEFINITION. What each input does (20_memory.md, R70, R240): a host access, a command issued by a write of CMD, a reset. -/

namespace Sys2Proof.Machine

/-- What a host read of a register gives, zero-extended to 32 bits; `none` for CMD, which is write-only (R22, R57). -/
def readReg (s : State) : Reg → Option DWord
  | .cmd => none
  | .opData => some (s.opData.setWidth 32)
  | .opSlave => some (s.opSlave.setWidth 32)
  | .opFc => some (s.opFc.setWidth 32)
  | .opAddr => some (s.opAddr.setWidth 32)
  | .opCount => some (s.opCount.setWidth 32)
  | .opLen => some (s.opLen.setWidth 32)
  | .defReg => some (s.defReg.setWidth 32)
  | .wcnt => some (s.wcnt.setWidth 32)
  | .status => some (s.status.setWidth 32)
  | .acc => some (s.acc.setWidth 32)
  | .resCrc => some (s.resCrc.setWidth 32)
  | .resValid => some (if s.resValid then 1 else 0)
  | .excCode => some (s.excCode.setWidth 32)
  | .resBc => some (s.resBc.setWidth 32)
  | .resVal => some s.resVal
  | .resScale => some (s.resScale.setWidth 32)
  | .resTlen => some (s.resTlen.setWidth 32)

/-- Stores a value that has passed `writeRefusal` in a register the host may write (R23, R26); the others, and CMD, hold nothing a
host write could change. -/
def storeReg (s : State) (v : DWord) : Reg → State
  | .opData => { s with opData := v.setWidth 8 }
  | .opSlave => { s with opSlave := v.setWidth 8 }
  | .opFc => { s with opFc := v.setWidth 8 }
  | .opAddr => { s with opAddr := v.setWidth 16 }
  | .opCount => { s with opCount := v.setWidth 16 }
  | .opLen => { s with opLen := v.setWidth 16 }
  | .defReg => { s with defReg := v.setWidth 16 }
  | .wcnt => { s with wcnt := v.setWidth 8 }
  | .cmd => s
  | .status => s
  | .acc => s
  | .resCrc => s
  | .resValid => s
  | .excCode => s
  | .resBc => s
  | .resVal => s
  | .resScale => s
  | .resTlen => s

/-- Refuses a value that does not fit in `width` bits (D35; log 7). -/
def widthRefusal (r : Reg) (v : DWord) (width : Nat) : Option Refusal :=
  if v.toNat < 2 ^ width then none else some (.valueWiderThanRegister r v)

/-- Why a host write of a register has no meaning; `none` if it has one (R22, R26, R56, D35). -/
def writeRefusal (v : DWord) : Reg → Option Refusal
  | .cmd => widthRefusal .cmd v 8
  | .opData => widthRefusal .opData v 8
  | .opSlave => widthRefusal .opSlave v 8
  | .opFc => widthRefusal .opFc v 8
  | .opAddr => widthRefusal .opAddr v 16
  | .opCount => widthRefusal .opCount v 16
  | .opLen => widthRefusal .opLen v 16
  | .defReg => widthRefusal .defReg v 16
  | .wcnt => if v.toNat ≤ Config.wcntMax then none else some (.wcntAboveLimit v)
  | .status => some (.writeOfReadOnlyRegister .status)
  | .acc => some (.writeOfReadOnlyRegister .acc)
  | .resCrc => some (.writeOfReadOnlyRegister .resCrc)
  | .resValid => some (.writeOfReadOnlyRegister .resValid)
  | .excCode => some (.writeOfReadOnlyRegister .excCode)
  | .resBc => some (.writeOfReadOnlyRegister .resBc)
  | .resVal => some (.writeOfReadOnlyRegister .resVal)
  | .resScale => some (.writeOfReadOnlyRegister .resScale)
  | .resTlen => some (.writeOfReadOnlyRegister .resTlen)

/-- A command code arrives at CMD (R70). A code that is no command sets STATUS to IllegalCommand and changes nothing else
(R72, R213). -/
def issue (code : Byte) (s : State) : Result :=
  match decode [code] with
  | .ok (i, _) => exec i s
  | .error _ => finish .illegalCommand s

/-- A host read of an element of a buffer of `size` elements, of which `value` is the content (R37, R51–R53, R56). -/
def readElement (b : Buffer) (size i : Nat) (value : Option DWord) (s : State) : Result :=
  if i < size then
    match value with
    | some v => .next (s.deliver v)
    | none => unwritten b i
  else .refused (.bufferIndexOutOfRange b i)

/-- A host read of a register: its value goes to the host, nothing changes (R57). -/
def hostReadReg (r : Reg) (s : State) : Result :=
  match readReg s r with
  | some v => .next (s.deliver v)
  | none => .refused .readOfCmd

/-- A host write of a register: of CMD it issues a command, of the others it stores the value (R57, R70). -/
def hostWriteReg (r : Reg) (v : DWord) (s : State) : Result :=
  match writeRefusal v r with
  | some why => .refused why
  | none => if r = .cmd then issue (v.setWidth 8) s else .next (storeReg s v r)

/-- A host write of a byte of FB (R51). -/
def hostWriteFb (i : Nat) (v : Byte) (s : State) : Result :=
  if i < Config.fbSize then .next { s with fb := s.fb.write i v } else .refused (.bufferIndexOutOfRange .fb i)

/-- A host write of a word of WB (R52). -/
def hostWriteWb (i : Nat) (v : Word) (s : State) : Result :=
  if i < Config.wbSize then .next { s with wb := s.wb.write i v } else .refused (.bufferIndexOutOfRange .wb i)

/-- Performs one host access (R56, R57, R74). -/
def hostAccess (a : Access) (s : State) : Result :=
  match a with
  | .rd r => hostReadReg r s
  | .wr r v => hostWriteReg r v s
  | .rdb i => readElement .fb Config.fbSize i ((s.fb.read i).map (·.setWidth 32)) s
  | .wrb i v => hostWriteFb i v s
  | .rdw i => readElement .wb Config.wbSize i ((s.wb.read i).map (·.setWidth 32)) s
  | .wrw i v => hostWriteWb i v s
  | .rdt i => readElement .tb Config.tbSize i ((s.tb.read i).map (·.setWidth 32)) s
  | .wrt i _ => .refused (.writeOfTextBuffer i)
  | .rdwByte i => .refused (.byteAccessToWordBuffer i)
  | .wrwByte i _ => .refused (.byteAccessToWordBuffer i)

/-- One input (R21, R240). -/
def takeInput (e : Input) (s : State) : Result :=
  match e with
  | .access a => hostAccess a s
  | .reset => .next s.resetBlock

/-- Takes the next input; with none pending the block is idle and nothing changes (R58; log 2). -/
def runNextInput (s : State) : Result :=
  match s.pending with
  | [] => .next s
  | e :: rest => takeInput e { s with pending := rest }

/-- The access that issues a command: a write of its code to CMD (R70, R74). -/
def commandInput (code : Byte) : Input := .access (.wr .cmd (code.setWidth 32))

end Sys2Proof.Machine
end

