-- ==== Sys2Proof/Machine/Step.lean ====
section
/-! DEFINITION. One step of the machine: one host access, one command or one reset (R21, R58, R240). -/

namespace Sys2Proof.Machine

/-- One step. -/
def step (s : State) : Host.Outcome State Fault Refusal := runNextInput s

/-- The state with the command whose bits are `w` as the next input: the block has no memory to fetch from, a command arrives as
a write of CMD (R21, R61, R70; log 1). What was pending comes after it. -/
def State.withFetchWord (s : State) (nbits w : Nat) : State :=
  { s with pending := commandInput (tableByte nbits w) :: s.pending }

end Sys2Proof.Machine
end

