-- ==== Sys2Proof/Safety.lean ====
section
/-! DEFINITION. What a safe run is, in the terms the statements use: the invariant of the state, the elements a command reads,
and the access the next step takes. -/

namespace Sys2Proof.Machine

/-- The statuses the block can report: 0x00 to 0x0C without 0x02 (R80, R214). -/
def statusProduced (code : Byte) : Bool := code.toNat ≤ 0x0C && code != 0x02

/-- What every state of a run satisfies: the buffers are canonical and in bounds (R33–R35, R50), WCNT is in its range (R26),
RES_SCALE is a divisor (R78), the text of the last decoding lies in TB and is written (R35), and STATUS is a code the block
produces (R80). -/
structure State.Inv (s : State) : Prop where
  fbWf        : s.fb.wf = true
  fbInBounds  : s.fb.inBounds Config.fbSize = true
  wbWf        : s.wb.wf = true
  wbInBounds  : s.wb.inBounds Config.wbSize = true
  tbWf        : s.tb.wf = true
  tbInBounds  : s.tb.inBounds Config.tbSize = true
  wcntRange   : s.wcnt.toNat ≤ Config.wcntMax
  scaleLegal  : s.resScale = 1 ∨ s.resScale = 10 ∨ s.resScale = 100
  tlenRange   : s.resTlen.toNat ≤ Config.tbSize
  textWritten : ∀ i, i < s.resTlen.toNat → ∃ b, s.tb.read i = some b
  statusLegal : statusProduced s.status = true

/-- The element a host read reads: the buffer and the index. -/
def Access.readsElement : Access → Option (Buffer × Nat)
  | .rdb i => some (.fb, i)
  | .rdw i => some (.wb, i)
  | .rdt i => some (.tb, i)
  | _ => none

/-- Whether a buffer element has been written since reset (R36). -/
def State.isWritten (s : State) (b : Buffer) (i : Nat) : Bool :=
  match b with
  | .fb => (s.fb.read i).isSome
  | .wb => (s.wb.read i).isSome
  | .tb => (s.tb.read i).isSome

/-- FB holds a byte sequence from index 0 on, every byte of it written (R33, R64). -/
def State.frameIs (s : State) (raw : List Byte) : Prop := ∀ i, (h : i < raw.length) → s.fb.read i = some raw[i]

/-- OP_LEN is the length of a byte sequence that FB holds (R64). -/
def State.holdsFrame (s : State) (raw : List Byte) : Prop := s.opLen.toNat = raw.length ∧ s.frameIs raw

/-- WB holds a word sequence from index 0 on, every word of it written (R34). -/
def State.wordsAre (s : State) (words : List Word) : Prop := ∀ i, (h : i < words.length) → s.wb.read i = some words[i]

/-- A DECODE's definition checks all pass (R181, R182, R183). -/
def State.definitionPasses (s : State) : Bool :=
  (kindOf (defKind s.defReg)).any (fun k => definitionFailure s.defReg s.wcnt k == none)

/-- The range a command reads in this state, its own range checks passed (R37): the buffer and the number of elements from index
0. -/
def readRangeOf (i : Instr) (s : State) : Option (Buffer × Nat) :=
  match i with
  | .crcInit => none
  | .crcUpdate => none
  | .crcCompute => if s.opLen.toNat ≤ Config.fbSize then some (.fb, s.opLen.toNat) else none
  | .crcAppend => if s.opLen.toNat ≤ Config.fbSize - 2 then some (.fb, s.opLen.toNat) else none
  | .crcValidate =>
    if 2 ≤ s.opLen.toNat ∧ s.opLen.toNat ≤ Config.fbSize then some (.fb, s.opLen.toNat) else none
  | .buildRead => none
  | .parse => if s.opLen.toNat ≤ Config.fbSize then some (.fb, s.opLen.toNat) else none
  | .decode => if s.definitionPasses then some (.wb, (defWc s.defReg).toNat) else none

end Sys2Proof.Machine
end

