-- ==== Sys2Proof/Certificates/Slice0/Obligations.lean ====
section
/-! DEFINITION. The statements for the provers. Each docstring names the rules of spec/ it formalises. The words of a statement that
describe a value (a checksum's bytes, a field of DEF, a numeral) are written here in plain arithmetic, apart from the
definitions the machine computes with. -/

namespace Sys2Proof.Slice0

open Sys2Proof.Machine

/-- One iteration of R100's loop on numbers: halve, and fold 0xA001 in when the number was odd. -/
def natShift (a : Nat) : Nat := if a % 2 = 1 then (a / 2) ^^^ 0xA001 else a / 2

/-- `n` bits of DEF from bit `lo` on, as a number (R76). -/
def defField (d : Word) (lo n : Nat) : Nat := d.toNat / 2 ^ lo % 2 ^ n

/-- DEF names a supported encoding: KIND 0 to 4, and no reserved divisor with KIND 0 (R77, R78, R181). -/
def supportedDefinition (d : Word) : Prop := defField d 0 3 ≤ 4 ∧ ¬ (defField d 0 3 = 0 ∧ defField d 4 2 = 3)

/-- DEF is not malformed: reserved bits 0, WC 1 to 125, and the word count its kind needs (R182, R184). -/
def wellFormedDefinition (d : Word) : Prop :=
  defField d 6 2 = 0 ∧ defField d 15 1 = 0 ∧ 1 ≤ defField d 8 7 ∧ defField d 8 7 ≤ 125 ∧
  ((defField d 0 3 = 0 ∨ defField d 0 3 = 1) → defField d 8 7 = 1) ∧
  ((defField d 0 3 = 2 ∨ defField d 0 3 = 4) → defField d 8 7 = 2)

/-- The decimal numeral of a number in ASCII, as Lean's library writes it (R193). -/
def numeral (n : Nat) : List Byte := (Nat.toDigits 10 n).map fun c => BitVec.ofNat 8 c.toNat

/-- A checksum's two bytes as they are sent, low byte first (R54). -/
def sentLowFirst (c : Word) : List Byte := [BitVec.ofNat 8 (c.toNat % 256), BitVec.ofNat 8 (c.toNat / 256)]

/-- A success response that carries a list of words, high byte first, with its checksum (R82, R86). -/
def responseFrame (slave fc : Byte) (words : List Word) : List Byte :=
  let body := slave :: fc :: BitVec.ofNat 8 (2 * words.length) ::
    words.flatMap fun w => [BitVec.ofNat 8 (w.toNat / 256), BitVec.ofNat 8 (w.toNat % 256)]
  body ++ sentLowFirst (crc16 body)

/-- The pseudo-form `crc b0, ..., bk` as accesses (R75, R104). -/
def streamInputs (bytes : List Byte) : List Input :=
  .access (.wr .cmd 0x01) :: bytes.flatMap fun b => [.access (.wr .opData (b.setWidth 32)), .access (.wr .cmd 0x02)]

/-- The elements and registers a command reads are the same in two states (R73, "Reads"). -/
def sameReads (i : Instr) (s s' : State) : Prop :=
  match i with
  | .crcInit => True
  | .crcUpdate => s.acc = s'.acc ∧ s.opData = s'.opData
  | .crcCompute => s.opLen = s'.opLen ∧ ∀ k, k < s.opLen.toNat → s.fb.read k = s'.fb.read k
  | .crcAppend => s.opLen = s'.opLen ∧ ∀ k, k < s.opLen.toNat → s.fb.read k = s'.fb.read k
  | .crcValidate => s.opLen = s'.opLen ∧ ∀ k, k < s.opLen.toNat → s.fb.read k = s'.fb.read k
  | .buildRead => s.opSlave = s'.opSlave ∧ s.opAddr = s'.opAddr ∧ s.opCount = s'.opCount
  | .parse => s.opLen = s'.opLen ∧ s.opSlave = s'.opSlave ∧ s.opFc = s'.opFc ∧
      ∀ k, k < s.opLen.toNat → s.fb.read k = s'.fb.read k
  | .decode => s.defReg = s'.defReg ∧ s.wcnt = s'.wcnt ∧ ∀ k, k < defField s.defReg 8 7 → s.wb.read k = s'.wb.read k

/-- A register or element was left alone on both sides, or was given the same value on both. -/
def sameEffect {α : Type} (before after before' after' : α) : Prop :=
  (after = before ∧ after' = before') ∨ after = after'

/-- Two executions wrote the same: every register and every buffer element. -/
def sameEffects (s t s' t' : State) : Prop :=
  t.status = t'.status ∧
  sameEffect s.opData t.opData s'.opData t'.opData ∧ sameEffect s.opSlave t.opSlave s'.opSlave t'.opSlave ∧
  sameEffect s.opFc t.opFc s'.opFc t'.opFc ∧ sameEffect s.opAddr t.opAddr s'.opAddr t'.opAddr ∧
  sameEffect s.opCount t.opCount s'.opCount t'.opCount ∧ sameEffect s.opLen t.opLen s'.opLen t'.opLen ∧
  sameEffect s.defReg t.defReg s'.defReg t'.defReg ∧ sameEffect s.wcnt t.wcnt s'.wcnt t'.wcnt ∧
  sameEffect s.acc t.acc s'.acc t'.acc ∧ sameEffect s.resCrc t.resCrc s'.resCrc t'.resCrc ∧
  sameEffect s.resValid t.resValid s'.resValid t'.resValid ∧ sameEffect s.excCode t.excCode s'.excCode t'.excCode ∧
  sameEffect s.resBc t.resBc s'.resBc t'.resBc ∧ sameEffect s.resVal t.resVal s'.resVal t'.resVal ∧
  sameEffect s.resScale t.resScale s'.resScale t'.resScale ∧ sameEffect s.resTlen t.resTlen s'.resTlen t'.resTlen ∧
  (∀ a, sameEffect (s.fb.read a) (t.fb.read a) (s'.fb.read a) (t'.fb.read a)) ∧
  (∀ a, sameEffect (s.wb.read a) (t.wb.read a) (s'.wb.read a) (t'.wb.read a)) ∧
  (∀ a, sameEffect (s.tb.read a) (t.tb.read a) (s'.tb.read a) (t'.tb.read a))

/-- What a command may write beside STATUS, and nothing else (R73, "May write"). -/
def writesOnly (i : Instr) (s t : State) : Prop :=
  match i with
  | .crcInit => t = { s with acc := t.acc, status := t.status }
  | .crcUpdate => t = { s with acc := t.acc, status := t.status }
  | .crcCompute => t = { s with resCrc := t.resCrc, status := t.status }
  | .crcAppend => t = { s with resCrc := t.resCrc, fb := t.fb, status := t.status } ∧
      ∀ a, a ≠ s.opLen.toNat → a ≠ s.opLen.toNat + 1 → t.fb.read a = s.fb.read a
  | .crcValidate => t = { s with resCrc := t.resCrc, resValid := t.resValid, status := t.status }
  | .buildRead => t = { s with resCrc := t.resCrc, fb := t.fb, status := t.status } ∧
      ∀ a, 8 ≤ a → t.fb.read a = s.fb.read a
  | .parse =>
    t = { s with
      excCode := t.excCode, resBc := t.resBc, resCrc := t.resCrc, wcnt := t.wcnt, wb := t.wb, status := t.status } ∧
      ∀ a, 127 ≤ a → t.wb.read a = s.wb.read a
  | .decode =>
    t = { s with
      resVal := t.resVal, resScale := t.resScale, resTlen := t.resTlen, tb := t.tb, status := t.status } ∧
      ∀ a, 250 ≤ a → t.tb.read a = s.tb.read a

/-- The statuses a command can leave (R80's column "Produced by", R211). -/
def statusesOf : Instr → List Byte
  | .crcInit => [0x00]
  | .crcUpdate => [0x00]
  | .crcCompute => [0x00, 0x01]
  | .crcAppend => [0x00, 0x01]
  | .crcValidate => [0x00, 0x01]
  | .buildRead => [0x00, 0x01]
  | .parse => [0x00, 0x01, 0x03, 0x04, 0x05, 0x06, 0x07, 0x08, 0x0B]
  | .decode => [0x00, 0x01, 0x09, 0x0A]

end Sys2Proof.Slice0

section

open Sys2Proof Sys2Proof.Machine Sys2Proof.Slice0

/-! ### Encoding, and a step -/

/-- R71: each code of the table is read as its command. -/
def Obligations.CommandCodesDecodeAsTabled : Prop :=
  decode [0x01] = .ok (.crcInit, []) ∧ decode [0x02] = .ok (.crcUpdate, []) ∧
  decode [0x03] = .ok (.crcCompute, []) ∧ decode [0x04] = .ok (.crcAppend, []) ∧
  decode [0x05] = .ok (.crcValidate, []) ∧ decode [0x10] = .ok (.buildRead, []) ∧
  decode [0x20] = .ok (.parse, []) ∧ decode [0x30] = .ok (.decode, [])

/-- R70, R71, R72, R88: bytes decode to a command exactly when they begin with that command's own code, and what follows is handed
back; so no two commands share bytes and no other byte is a command. -/
def Obligations.DecodingIsExactlyTheInverseOfEncoding : Prop :=
  ∀ (bytes rest : List Byte) (i : Instr), decode bytes = .ok (i, rest) ↔ bytes = encode i ++ rest

/-- R70, R13, R21: a write of a command's code to CMD is one step that executes the command, with the input taken. -/
def Obligations.StepExecutesTheIssuedCommand : Prop :=
  ∀ (s : State) (v : DWord) (i : Instr) (rest : List Input),
    s.pending = .access (.wr .cmd v) :: rest → v.toNat ≤ 0xFF → decode [v.setWidth 8] = .ok (i, []) →
    step s = exec i { s with pending := rest }

/-- The model's own interface (log 1): the command placed by `withFetchWord` is the one the next step executes, on the state as it
was. -/
def Obligations.PlacedCommandRunsNext : Prop :=
  ∀ (s : State) (nbits w : Nat) (i : Instr), decodeTableWord nbits w = some i →
    step (s.withFetchWord nbits w) = exec i s

/-- R72, R213: a CMD write whose code is none of R71's writes STATUS := 0x0C and changes nothing else. -/
def Obligations.IllegalCommandWritesOnlyStatus : Prop :=
  ∀ (s : State) (v : DWord) (rest : List Input),
    s.pending = .access (.wr .cmd v) :: rest → v.toNat ≤ 0xFF →
    v.toNat ∉ [0x01, 0x02, 0x03, 0x04, 0x05, 0x10, 0x20, 0x30] →
    step s = .next { s with pending := rest, status := 0x0C }

/-! ### Host accesses -/

/-- R22, R57: a host read of a register other than CMD gives the register's value and changes nothing of the block. (That the value
is appended to `returned`, zero-extended, is the model's own record: log 3.) -/
def Obligations.RegisterReadsGiveTheRegister : Prop :=
  ∀ (s : State) (rest : List Input) (r : Reg) (value : Nat),
    (r, value) ∈ [(Reg.opData, s.opData.toNat), (Reg.opSlave, s.opSlave.toNat), (Reg.opFc, s.opFc.toNat),
      (Reg.opAddr, s.opAddr.toNat), (Reg.opCount, s.opCount.toNat), (Reg.opLen, s.opLen.toNat),
      (Reg.defReg, s.defReg.toNat), (Reg.wcnt, s.wcnt.toNat), (Reg.status, s.status.toNat), (Reg.acc, s.acc.toNat),
      (Reg.resCrc, s.resCrc.toNat), (Reg.resValid, s.resValid.toNat), (Reg.excCode, s.excCode.toNat),
      (Reg.resBc, s.resBc.toNat), (Reg.resVal, s.resVal.toNat), (Reg.resScale, s.resScale.toNat),
      (Reg.resTlen, s.resTlen.toNat)] →
    s.pending = .access (.rd r) :: rest →
    step s = .next { s with pending := rest, returned := s.returned ++ [BitVec.ofNat 32 value] }

/-- R22, R23, R26, R79: a host write stores every value of the register's width, for WCNT every value up to 127, in that register
alone. -/
def Obligations.RegisterWritesStoreTheValue : Prop :=
  ∀ (s : State) (rest : List Input),
    (∀ b : Byte, s.pending = .access (.wr .opData (b.setWidth 32)) :: rest →
      step s = .next { s with pending := rest, opData := b }) ∧
    (∀ b : Byte, s.pending = .access (.wr .opSlave (b.setWidth 32)) :: rest →
      step s = .next { s with pending := rest, opSlave := b }) ∧
    (∀ b : Byte, s.pending = .access (.wr .opFc (b.setWidth 32)) :: rest →
      step s = .next { s with pending := rest, opFc := b }) ∧
    (∀ w : Word, s.pending = .access (.wr .opAddr (w.setWidth 32)) :: rest →
      step s = .next { s with pending := rest, opAddr := w }) ∧
    (∀ w : Word, s.pending = .access (.wr .opCount (w.setWidth 32)) :: rest →
      step s = .next { s with pending := rest, opCount := w }) ∧
    (∀ w : Word, s.pending = .access (.wr .opLen (w.setWidth 32)) :: rest →
      step s = .next { s with pending := rest, opLen := w }) ∧
    (∀ w : Word, s.pending = .access (.wr .defReg (w.setWidth 32)) :: rest →
      step s = .next { s with pending := rest, defReg := w }) ∧
    (∀ b : Byte, b.toNat ≤ 127 → s.pending = .access (.wr .wcnt (b.setWidth 32)) :: rest →
      step s = .next { s with pending := rest, wcnt := b })

/-- R50, R51, R52, R57: a host write of FB or WB gives the element its value and leaves every other element of the buffer, and
everything else, as it was. -/
def Obligations.BufferWritesStoreOneElement : Prop :=
  ∀ (s : State) (rest : List Input) (i : Nat),
    (∀ v : Byte, i < 260 → s.pending = .access (.wrb i v) :: rest →
      ∃ t, step s = .next t ∧ t = { s with pending := rest, fb := t.fb } ∧ t.fb.read i = some v ∧
        ∀ a, a ≠ i → t.fb.read a = s.fb.read a) ∧
    (∀ v : Word, i < 127 → s.pending = .access (.wrw i v) :: rest →
      ∃ t, step s = .next t ∧ t = { s with pending := rest, wb := t.wb } ∧ t.wb.read i = some v ∧
        ∀ a, a ≠ i → t.wb.read a = s.wb.read a)

/-- R37, R51, R52, R53, R57: a host read of a buffer element gives its value and changes nothing of the block; if nothing has
written the element, it is the fault UnwrittenRead. (That the value is appended to `returned`, zero-extended, is the model's own
record: log 3. That the fault carries the buffer and the index is the model's choice: log 5.) -/
def Obligations.BufferReadsGiveTheElementOrFault : Prop :=
  ∀ (s : State) (rest : List Input) (i : Nat),
    (∀ b, i < 260 → s.pending = .access (.rdb i) :: rest → s.fb.read i = some b →
      step s = .next { s with pending := rest, returned := s.returned ++ [BitVec.ofNat 32 b.toNat] }) ∧
    (i < 260 → s.pending = .access (.rdb i) :: rest → s.fb.read i = none → step s = .fault (.unwrittenRead .fb i)) ∧
    (∀ w, i < 127 → s.pending = .access (.rdw i) :: rest → s.wb.read i = some w →
      step s = .next { s with pending := rest, returned := s.returned ++ [BitVec.ofNat 32 w.toNat] }) ∧
    (i < 127 → s.pending = .access (.rdw i) :: rest → s.wb.read i = none → step s = .fault (.unwrittenRead .wb i)) ∧
    (∀ b, i < 250 → s.pending = .access (.rdt i) :: rest → s.tb.read i = some b →
      step s = .next { s with pending := rest, returned := s.returned ++ [BitVec.ofNat 32 b.toNat] }) ∧
    (i < 250 → s.pending = .access (.rdt i) :: rest → s.tb.read i = none → step s = .fault (.unwrittenRead .tb i))

/-- R56: every host access the rule lists is refused; a refusal carries no state. -/
def Obligations.ListedAccessesAreRefused : Prop :=
  ∀ (s : State) (rest : List Input) (a : Access), s.pending = .access a :: rest →
    ((∃ i, 260 ≤ i ∧ (a = .rdb i ∨ ∃ v, a = .wrb i v)) ∨ (∃ i, 127 ≤ i ∧ (a = .rdw i ∨ ∃ v, a = .wrw i v)) ∨
      (∃ i, 250 ≤ i ∧ a = .rdt i) ∨
      (∃ r v, r ∈ [Reg.status, Reg.acc, Reg.resCrc, Reg.resValid, Reg.excCode, Reg.resBc, Reg.resVal, Reg.resScale,
        Reg.resTlen] ∧ a = .wr r v) ∨
      a = .rd .cmd ∨ (∃ i v, a = .wrt i v) ∨ (∃ v, 127 < v.toNat ∧ a = .wr .wcnt v) ∨
      (∃ i, a = .rdwByte i ∨ ∃ v, a = .wrwByte i v)) →
    ∃ why, step s = .refused why

/-- R22, R56, D35: a step refuses exactly the ill-formed accesses. (That a value wider than its register is one of them is log 7.) -/
def Obligations.StepRefusesExactlyIllFormedAccesses : Prop :=
  ∀ (s : State), (∃ why, step s = .refused why) ↔ ∃ a rest, s.pending = .access a :: rest ∧ a.wf = false

/-! ### Reset -/

/-- R22, R241: after power-on and after a reset event, every register holds its reset value and every buffer element is unwritten,
so that a DECODE of any definition without fault finds too few words until WCNT is written. -/
def Obligations.ResetGivesTheTabledValues : Prop :=
  ∀ t : State, (t = State.reset ∨ ∃ s rest, s.pending = .reset :: rest ∧ step s = .next t) →
    t.opData = 0x00 ∧ t.opSlave = 0x00 ∧ t.opFc = 0x00 ∧ t.opAddr = 0x0000 ∧ t.opCount = 0x0000 ∧ t.opLen = 0x0000 ∧
    t.defReg = 0x0000 ∧ t.wcnt = 0 ∧ t.status = 0x00 ∧ t.acc = 0xFFFF ∧ t.resCrc = 0x0000 ∧ t.resValid = false ∧
    t.excCode = 0x00 ∧ t.resBc = 0x00 ∧ t.resVal = 0x00000000 ∧ t.resScale = 0x01 ∧ t.resTlen = 0x00 ∧
    (∀ i, t.fb.read i = none) ∧ (∀ i, t.wb.read i = none) ∧ (∀ i, t.tb.read i = none) ∧
    ∀ d, supportedDefinition d → wellFormedDefinition d →
      exec .decode { t with defReg := d } = .next { t with defReg := d, status := 0x09 }

/-! ### The Checksum Engine -/

/-- R100: `crc_step` is the loop of the rule, here on numbers: XOR the byte in, then eight times halve and, if the number was odd,
XOR 0xA001. -/
def Obligations.ByteStepIsTheHalvingLoop : Prop :=
  ∀ (acc : Word) (b : Byte), (crcStep acc b).toNat = natShift^[8] (acc.toNat ^^^ b.toNat)

/-- R101: the checksum starts from 0xFFFF, takes one byte step per byte in order, and nothing follows; with the rule's six
examples. -/
def Obligations.ChecksumFoldsTheByteStep : Prop :=
  crc16 [] = 0xFFFF ∧ (∀ bytes b, crc16 (bytes ++ [b]) = crcStep (crc16 bytes) b) ∧
  crc16 [0x00] = 0x40BF ∧ crc16 [0x01] = 0x807E ∧ crc16 [0xFF] = 0x00FF ∧
  crc16 [0x01, 0x03, 0x00, 0x00, 0x00, 0x01] = 0x0A84 ∧
  crc16 [0x31, 0x32, 0x33, 0x34, 0x35, 0x36, 0x37, 0x38, 0x39] = 0x4B37

/-- R102, R103: CRC_INIT sets ACC to 0xFFFF, CRC_UPDATE folds OP_DATA into it; both end with OK and change nothing else. -/
def Obligations.StreamingCommandsUpdateTheAccumulator : Prop :=
  encode .crcInit = [0x01] ∧ encode .crcUpdate = [0x02] ∧
  ∀ s : State,
    exec .crcInit s = .next { s with acc := 0xFFFF, status := 0x00 } ∧
    exec .crcUpdate s = .next { s with acc := crcStep s.acc s.opData, status := 0x00 }

/-- R104 (the streaming law, which the spec derives from R101, R102, R103): the accesses of `crc b0, ..., bk` leave the checksum of
the bytes in ACC, and beside it only the last byte in OP_DATA and OK in STATUS. -/
def Obligations.StreamedBytesLeaveTheirChecksum : Prop :=
  ∀ (s : State) (bytes : List Byte) (rest : List Input), s.pending = streamInputs bytes ++ rest →
    Sys2Proof.core.run (1 + 2 * bytes.length) s =
      .next { s with
        pending := rest
        acc := crc16 bytes
        opData := bytes.getLastD s.opData
        status := 0x00 }

/-- R32: over any step, ACC changes only when CRC_INIT is issued, which gives 0xFFFF, when CRC_UPDATE is, which folds OP_DATA in, or
at a reset (R241). -/
def Obligations.AccumulatorChangesOnlyByItsTwoCommands : Prop :=
  ∀ s t : State, step s = .next t → t.acc ≠ s.acc →
    ∃ e rest, s.pending = e :: rest ∧
      ((e = .access (.wr .cmd 0x01) ∧ t.acc = 0xFFFF) ∨
       (e = .access (.wr .cmd 0x02) ∧ t.acc = crcStep s.acc s.opData) ∨
       (e = .reset ∧ t.acc = 0xFFFF))

/-- R110 (which the spec derives from R100): for each byte, the byte step is a bijection on ACC. -/
def Obligations.ByteStepIsABijection : Prop :=
  ∀ b : Byte, Function.Bijective fun acc : Word => crcStep acc b

/-- From R100, R101: two byte sequences that differ in exactly one byte have different checksums, so CRC_VALIDATE sees every
single-byte error in front of the trailer. -/
def Obligations.SingleByteErrorChangesTheChecksum : Prop :=
  ∀ (before after : List Byte) (b b' : Byte), b ≠ b' →
    crc16 (before ++ b :: after) ≠ crc16 (before ++ b' :: after)

/-- From R87, R100, R101: a trailer is valid exactly when the checksum over the whole frame, trailer included, is 0. -/
def Obligations.TrailerIsValidExactlyWhenTheFrameSumsToZero : Prop :=
  ∀ (body : List Byte) (lo hi : Byte),
    (crc16 body).toNat = lo.toNat + 256 * hi.toNat ↔ crc16 (body ++ [lo, hi]) = 0

/-- R105: CRC_COMPUTE. -/
def Obligations.ComputeGivesTheChecksumOfTheBuffer : Prop :=
  encode .crcCompute = [0x03] ∧
  (∀ s : State, 260 < s.opLen.toNat → exec .crcCompute s = .next { s with status := 0x01 }) ∧
  (∀ (s : State) (raw : List Byte), raw.length ≤ 260 → s.holdsFrame raw →
    exec .crcCompute s = .next { s with resCrc := crc16 raw, status := 0x00 })

/-- R106: CRC_APPEND. The bytes stored are FB[n] and FB[n+1]; every other element reads as before. -/
def Obligations.AppendStoresTheChecksumLowByteFirst : Prop :=
  encode .crcAppend = [0x04] ∧
  (∀ s : State, 258 < s.opLen.toNat → exec .crcAppend s = .next { s with status := 0x01 }) ∧
  (∀ (s : State) (raw : List Byte), raw.length ≤ 258 → s.holdsFrame raw →
    ∃ t, exec .crcAppend s = .next t ∧
      t = { s with fb := t.fb, resCrc := crc16 raw, status := 0x00 } ∧
      t.fb.read raw.length = some (BitVec.ofNat 8 ((crc16 raw).toNat % 256)) ∧
      t.fb.read (raw.length + 1) = some (BitVec.ofNat 8 ((crc16 raw).toNat / 256)) ∧
      ∀ a, a ≠ raw.length → a ≠ raw.length + 1 → t.fb.read a = s.fb.read a)

/-- R108, R109: CRC_VALIDATE. Below two bytes FB is not read, whatever it holds. -/
def Obligations.ValidateComparesTheTrailer : Prop :=
  encode .crcValidate = [0x05] ∧
  (∀ s : State, 260 < s.opLen.toNat → exec .crcValidate s = .next { s with status := 0x01 }) ∧
  (∀ s : State, s.opLen.toNat < 2 → exec .crcValidate s = .next { s with resValid := false, status := 0x00 }) ∧
  (∀ (s : State) (body : List Byte) (lo hi : Byte), body.length ≤ 258 → s.holdsFrame (body ++ [lo, hi]) →
    exec .crcValidate s = .next { s with
      resCrc := crc16 body
      resValid := decide ((crc16 body).toNat = lo.toNat + 256 * hi.toNat)
      status := 0x00 })

/-- R107 (the round-trip law, which the spec derives from R106 and R108): CRC_APPEND, then OP_LEN := n + 2, then CRC_VALIDATE, for
any frame of up to 258 bytes, leaves STATUS = OK and RES_VALID = 1. -/
def Obligations.AppendedChecksumAlwaysValidates : Prop :=
  ∀ (s : State) (raw : List Byte) (rest : List Input), raw.length ≤ 258 → s.holdsFrame raw →
    s.pending = .access (.wr .cmd 0x04) :: .access (.wr .opLen (BitVec.ofNat 32 (raw.length + 2))) ::
      .access (.wr .cmd 0x05) :: rest →
    ∃ t, Sys2Proof.core.run 3 s = .next t ∧ t.pending = rest ∧ t.status = 0x00 ∧ t.resValid = true ∧
      t.resCrc = crc16 raw

/-! ### The Frame Builder -/

/-- R131, R132: BUILD_READ. The bytes stored are FB[0..8); every other element reads as before. -/
def Obligations.BuildReadStoresTheRequestFrame : Prop :=
  encode .buildRead = [0x10] ∧
  (∀ s : State, (s.opCount.toNat = 0 ∨ 125 < s.opCount.toNat) → exec .buildRead s = .next { s with status := 0x01 }) ∧
  (∀ s : State, 1 ≤ s.opCount.toNat → s.opCount.toNat ≤ 125 →
    ∃ t body, exec .buildRead s = .next t ∧
      body = [s.opSlave, 0x03, BitVec.ofNat 8 (s.opAddr.toNat / 256), BitVec.ofNat 8 (s.opAddr.toNat % 256),
        BitVec.ofNat 8 (s.opCount.toNat / 256), BitVec.ofNat 8 (s.opCount.toNat % 256)] ∧
      t = { s with fb := t.fb, resCrc := crc16 body, status := 0x00 } ∧
      (∀ a, a < 8 → t.fb.read a = (body ++ sentLowFirst (crc16 body))[a]?) ∧
      ∀ a, 8 ≤ a → t.fb.read a = s.fb.read a)

/-- R134 (which the spec derives from R131 and R107): for every slave id, every address and every count 1 to 125, the request just
built validates with OP_LEN = 8. -/
def Obligations.BuiltRequestAlwaysValidates : Prop :=
  ∀ (s : State) (rest : List Input), 1 ≤ s.opCount.toNat → s.opCount.toNat ≤ 125 →
    s.pending = .access (.wr .cmd 0x10) :: .access (.wr .opLen 8) :: .access (.wr .cmd 0x05) :: rest →
    ∃ t, Sys2Proof.core.run 3 s = .next t ∧ t.pending = rest ∧ t.status = 0x00 ∧ t.resValid = true

/-! ### The Response Parser -/

/-- R151: an OP_LEN above 260 is InvalidArgument; a frame of fewer than 5 bytes is FrameTooShort, whatever the bytes hold. Both set
WCNT to 0 and change nothing else. -/
def Obligations.ParseRejectsBadLengths : Prop :=
  (∀ s : State, 260 < s.opLen.toNat → exec .parse s = .next { s with wcnt := 0, status := 0x01 }) ∧
  (∀ (s : State) (raw : List Byte), raw.length < 5 → s.holdsFrame raw →
    exec .parse s = .next { s with wcnt := 0, status := 0x03 })

/-- R152: a frame from another slave is SlaveIdMismatch, whatever its function code and checksum. -/
def Obligations.ParseReportsAnotherSlaveFirst : Prop :=
  ∀ (s : State) (b : Byte) (tail : List Byte), 4 ≤ tail.length → tail.length ≤ 259 → s.holdsFrame (b :: tail) →
    b ≠ s.opSlave → exec .parse s = .next { s with wcnt := 0, status := 0x05 }

/-- R153: the exception path. The code is extracted first; a length other than 5 is FrameTooLong, a wrong trailer CrcMismatch, and
otherwise the outcome is DeviceException. -/
def Obligations.ParseExtractsTheDeviceException : Prop :=
  (∀ (s : State) (code : Byte) (tail : List Byte), 3 ≤ tail.length → tail.length ≤ 257 →
    s.holdsFrame (s.opSlave :: (s.opFc ||| 0x80) :: code :: tail) →
    exec .parse s = .next { s with excCode := code, wcnt := 0, status := 0x04 }) ∧
  (∀ (s : State) (code lo hi : Byte), s.holdsFrame [s.opSlave, s.opFc ||| 0x80, code, lo, hi] →
    exec .parse s = .next { s with
      excCode := code
      resCrc := crc16 [s.opSlave, s.opFc ||| 0x80, code]
      wcnt := 0
      status := if (crc16 [s.opSlave, s.opFc ||| 0x80, code]).toNat = lo.toNat + 256 * hi.toNat then 0x08 else 0x07 })

/-- R154: a function code that is neither the expected one nor its exception code is FunctionCodeMismatch. -/
def Obligations.ParseRejectsAnotherFunctionCode : Prop :=
  ∀ (s : State) (fc : Byte) (tail : List Byte), 3 ≤ tail.length → tail.length ≤ 258 →
    s.holdsFrame (s.opSlave :: fc :: tail) → fc ≠ s.opFc ||| 0x80 → fc ≠ s.opFc →
    exec .parse s = .next { s with wcnt := 0, status := 0x06 }

/-- R155: for a success frame, RES_BC is written and the length must be 5 + byte_count; shorter is FrameTooShort, longer
FrameTooLong. (With OP_FC's bit 7 set no frame gets this far: R159.) -/
def Obligations.ParseChecksTheByteCount : Prop :=
  ∀ (s : State) (bc : Byte) (tail : List Byte), 2 ≤ tail.length → tail.length ≤ 257 →
    s.holdsFrame (s.opSlave :: s.opFc :: bc :: tail) → s.opFc ≠ s.opFc ||| 0x80 →
    (tail.length < bc.toNat + 2 → exec .parse s = .next { s with resBc := bc, wcnt := 0, status := 0x03 }) ∧
    (bc.toNat + 2 < tail.length → exec .parse s = .next { s with resBc := bc, wcnt := 0, status := 0x04 })

/-- R156, R157: a success frame of the right length. A wrong trailer is CrcMismatch, then an odd byte count OddByteCount, and
otherwise the payload is unpacked into WB, high byte first. The words stored are WB[0..byte_count/2); every other element reads as
before. -/
def Obligations.ParseUnpacksTheCheckedPayload : Prop :=
  ∀ (s : State) (bc lo hi : Byte) (data : List Byte), data.length = bc.toNat →
    s.holdsFrame (s.opSlave :: s.opFc :: bc :: (data ++ [lo, hi])) → s.opFc ≠ s.opFc ||| 0x80 →
    ∃ c, c = crc16 (s.opSlave :: s.opFc :: bc :: data) ∧
      (c.toNat ≠ lo.toNat + 256 * hi.toNat →
        exec .parse s = .next { s with resBc := bc, resCrc := c, wcnt := 0, status := 0x07 }) ∧
      (c.toNat = lo.toNat + 256 * hi.toNat → bc.toNat % 2 = 1 →
        exec .parse s = .next { s with resBc := bc, resCrc := c, wcnt := 0, status := 0x0B }) ∧
      (c.toNat = lo.toNat + 256 * hi.toNat → bc.toNat % 2 = 0 →
        ∃ t, exec .parse s = .next t ∧
          t = { s with resBc := bc, resCrc := c, wb := t.wb, wcnt := BitVec.ofNat 8 (bc.toNat / 2), status := 0x00 } ∧
          (∀ k, (h : 2 * k + 1 < data.length) →
            t.wb.read k = some (BitVec.ofNat 16 (data[2 * k].toNat * 256 + data[2 * k + 1].toNat))) ∧
          ∀ k, bc.toNat / 2 ≤ k → t.wb.read k = s.wb.read k)

/-- R158: on every outcome other than OK, PARSE leaves WCNT = 0 and WB unchanged, and a DECODE of any definition without fault then
finds too few words. -/
def Obligations.FailedParseSuppliesNoWords : Prop :=
  ∀ s t : State, exec .parse s = .next t → t.status ≠ 0x00 →
    t.wcnt = 0 ∧ t.wb = s.wb ∧
    ∀ d, supportedDefinition d → wellFormedDefinition d →
      exec .decode { t with defReg := d } = .next { t with defReg := d, status := 0x09 }

/-- R30 (which the spec derives from R155 and R157): after a PARSE that finishes with OK, RES_BC = 2 * WCNT. -/
def Obligations.ByteCountIsTwiceTheWordCount : Prop :=
  ∀ s t : State, exec .parse s = .next t → t.status = 0x00 → t.resBc.toNat = 2 * t.wcnt.toNat

/-- From R82, R86, R150: a response frame built around any list of up to 127 words is parsed back into exactly those words: the
encoding and the parser agree. -/
def Obligations.ParsedResponseGivesBackTheWords : Prop :=
  ∀ (s : State) (words : List Word), words.length ≤ 127 → s.opFc ≠ s.opFc ||| 0x80 →
    s.holdsFrame (responseFrame s.opSlave s.opFc words) →
    ∃ t, exec .parse s = .next t ∧ t.status = 0x00 ∧ t.wcnt.toNat = words.length ∧ t.wordsAre words ∧
      t = { s with resBc := t.resBc, resCrc := t.resCrc, wb := t.wb, wcnt := t.wcnt, status := t.status } ∧
      ∀ k, words.length ≤ k → t.wb.read k = s.wb.read k

/-- From R150, R160: PARSE answers OK only for a genuine success frame of the expected slave and function, and DeviceException only
for a genuine exception frame, whose code it reports; genuine means the whole frame, trailer included, sums to 0. -/
def Obligations.ParseAcceptsOnlyGenuineFrames : Prop :=
  ∀ s t : State, exec .parse s = .next t →
    (t.status = 0x00 → ∃ raw : List Byte, s.holdsFrame raw ∧ raw[0]? = some s.opSlave ∧ raw[1]? = some s.opFc ∧
      raw[2]? = some t.resBc ∧ raw.length = 5 + t.resBc.toNat ∧ crc16 raw = 0) ∧
    (t.status = 0x08 → ∃ raw : List Byte, s.holdsFrame raw ∧ raw[0]? = some s.opSlave ∧
      raw[1]? = some (s.opFc ||| 0x80) ∧ raw[2]? = some t.excCode ∧ raw.length = 5 ∧ crc16 raw = 0)

/-! ### The Register Decoder -/

/-- R75, R76: the fields of DEF lie where the layout puts them: a word put together from them gives each field back, and every word
is the one put together from its fields. -/
def Obligations.DefinitionFieldsRoundTrip : Prop :=
  (∀ (kind : BitVec 3) (bsel : Bool) (scale rsvd0 : BitVec 2) (wc : BitVec 7) (rsvd1 : Bool) (d : Word),
    d.toNat = rsvd1.toNat * 2 ^ 15 + wc.toNat * 2 ^ 8 + rsvd0.toNat * 2 ^ 6 + scale.toNat * 2 ^ 4 + bsel.toNat * 2 ^ 3 +
      kind.toNat →
    defKind d = kind ∧ defBsel d = bsel ∧ defScale d = scale ∧ defRsvd0 d = rsvd0 ∧ defWc d = wc ∧ defRsvd1 d = rsvd1) ∧
  (∀ d : Word, d.toNat = (defRsvd1 d).toNat * 2 ^ 15 + (defWc d).toNat * 2 ^ 8 + (defRsvd0 d).toNat * 2 ^ 6 +
    (defScale d).toNat * 2 ^ 4 + (defBsel d).toNat * 2 ^ 3 + (defKind d).toNat)

/-- R181, R182, R216: DECODE's failures, in their order: an unsupported encoding, then a malformed definition, then too few words.
Each writes only STATUS. -/
def Obligations.DecodeReportsTheFirstFailure : Prop :=
  ∀ s : State,
    (¬ supportedDefinition s.defReg → exec .decode s = .next { s with status := 0x0A }) ∧
    (supportedDefinition s.defReg → ¬ wellFormedDefinition s.defReg → exec .decode s = .next { s with status := 0x01 }) ∧
    (supportedDefinition s.defReg → wellFormedDefinition s.defReg → s.wcnt.toNat < defField s.defReg 8 7 →
      exec .decode s = .next { s with status := 0x09 })

/-- R185: unsigned-scaled. -/
def Obligations.DecodeUnsignedScaled : Prop :=
  ∀ (s : State) (w : Word) (scale : Nat) (divisor : Byte), (scale, divisor) ∈ [(0, 1), (1, 10), (2, 100)] →
    defField s.defReg 0 3 = 0 → defField s.defReg 4 2 = scale → wellFormedDefinition s.defReg →
    1 ≤ s.wcnt.toNat → s.wordsAre [w] →
    exec .decode s = .next { s with
      resVal := BitVec.ofNat 32 w.toNat
      resScale := divisor
      resTlen := 0
      status := 0x00 }

/-- R187: signed-magnitude-byte. The value is the magnitude, negated if bit 7 of the chosen byte is set, as a 32-bit two's
complement number; SCALE is ignored. -/
def Obligations.DecodeSignedMagnitudeByte : Prop :=
  ∀ (s : State) (w : Word) (b : Nat), defField s.defReg 0 3 = 1 → wellFormedDefinition s.defReg →
    b = (if defField s.defReg 3 1 = 1 then w.toNat / 256 else w.toNat % 256) →
    1 ≤ s.wcnt.toNat → s.wordsAre [w] →
    exec .decode s = .next { s with
      resVal := BitVec.ofInt 32 (if b / 128 = 1 then -((b % 128 : Nat) : Int) else ((b % 128 : Nat) : Int))
      resScale := 1
      resTlen := 0
      status := 0x00 }

/-- R189: wide-unsigned-multiword. The first word is the high half; SCALE is ignored. -/
def Obligations.DecodeWideUnsigned : Prop :=
  ∀ (s : State) (w0 w1 : Word), defField s.defReg 0 3 = 2 → wellFormedDefinition s.defReg →
    2 ≤ s.wcnt.toNat → s.wordsAre [w0, w1] →
    exec .decode s = .next { s with
      resVal := BitVec.ofNat 32 (w0.toNat * 65536 + w1.toNat)
      resScale := 1
      resTlen := 0
      status := 0x00 }

/-- R190: packed-ASCII. The bytes stored are TB[0..2*WC), two a word, high byte first; every other element reads as before. -/
def Obligations.DecodePackedAscii : Prop :=
  ∀ (s : State) (words : List Word), defField s.defReg 0 3 = 3 → wellFormedDefinition s.defReg →
    words.length = defField s.defReg 8 7 → words.length ≤ s.wcnt.toNat → s.wordsAre words →
    ∃ t, exec .decode s = .next t ∧
      t = { s with
        resVal := 0
        resScale := 1
        resTlen := BitVec.ofNat 8 (2 * words.length)
        tb := t.tb
        status := 0x00 } ∧
      (∀ i, (h : i < words.length) →
        t.tb.read (2 * i) = some (BitVec.ofNat 8 (words[i].toNat / 256)) ∧
        t.tb.read (2 * i + 1) = some (BitVec.ofNat 8 (words[i].toNat % 256))) ∧
      ∀ a, 2 * words.length ≤ a → t.tb.read a = s.tb.read a

/-- R192, R193: packed-version. The text is "V" and the decimal numerals of the three components with "." between them (the decimal
form is the spec's reading from general knowledge: log 11); RES_VAL holds the components. The bytes stored are TB[0..RES_TLEN);
every other element reads as before. -/
def Obligations.DecodePackedVersion : Prop :=
  ∀ (s : State) (w0 w1 : Word) (text : List Byte), defField s.defReg 0 3 = 4 → wellFormedDefinition s.defReg →
    2 ≤ s.wcnt.toNat → s.wordsAre [w0, w1] →
    text = [0x56] ++ numeral (w0.toNat % 256) ++ [0x2E] ++ numeral (w1.toNat / 256) ++ [0x2E] ++
      numeral (w1.toNat % 256) →
    6 ≤ text.length ∧ text.length ≤ 12 ∧
    ∃ t, exec .decode s = .next t ∧
      t = { s with
        resVal := BitVec.ofNat 32 (w0.toNat % 256 * 65536 + w1.toNat)
        resScale := 1
        resTlen := BitVec.ofNat 8 text.length
        tb := t.tb
        status := 0x00 } ∧
      (∀ a, a < text.length → t.tb.read a = text[a]?) ∧
      ∀ a, text.length ≤ a → t.tb.read a = s.tb.read a

/-- From R192, R193: the text of a version determines its three components, so no two versions are shown alike. -/
def Obligations.VersionTextDeterminesTheComponents : Prop :=
  ∀ a b c a' b' c' : Byte, versionText a b c = versionText a' b' c' → a = a' ∧ b = b' ∧ c = c'

/-- R195: a DECODE that finishes with any status other than OK writes only STATUS. -/
def Obligations.FailedDecodeWritesOnlyStatus : Prop :=
  ∀ s t : State, exec .decode s = .next t → t.status ≠ 0x00 → t = { s with status := t.status }

/-- R194: DECODE reads only the first WC words of WB, whatever the others hold, and changes neither WB nor WCNT, so that one PARSE
result can be decoded again. -/
def Obligations.DecodeReadsOnlyTheDefinedWords : Prop :=
  ∀ (s t : State) (wb' : Memory 16), (∀ k, k < defField s.defReg 8 7 → wb'.read k = s.wb.read k) →
    exec .decode s = .next t →
    exec .decode { s with wb := wb' } = .next { t with wb := wb' } ∧ t.wb = s.wb ∧ t.wcnt = s.wcnt

/-! ### The whole machine -/

/-- R22, R33–R35, R50, R241: the invariant holds at reset. -/
def Obligations.ResetMeetsTheInvariant : Prop := State.reset.Inv

/-- R22, R26, R33–R35, R50, R78, R80: every step keeps the invariant: canonical buffers within their sizes, WCNT at most 127, a legal
divisor in RES_SCALE, a text that lies in TB with every byte written, a STATUS the block produces. -/
def Obligations.EveryStepKeepsTheInvariant : Prop :=
  ∀ s t : State, s.Inv → step s = .next t → t.Inv

/-- R73, "May write": a command changes only what its row of the table lists, and STATUS. -/
def Obligations.CommandsWriteOnlyWhatTheyMay : Prop :=
  ∀ (i : Instr) (s t : State), exec i s = .next t → writesOnly i s t

/-- R73, "Reads": what a command writes depends only on what its row of the table lists as read: two states that agree there run
the command alike and get the same STATUS and the same written values. -/
def Obligations.CommandsDependOnlyOnWhatTheyRead : Prop :=
  ∀ (i : Instr) (s s' t : State), sameReads i s s' → exec i s = .next t →
    ∃ t', exec i s' = .next t' ∧ sameEffects s t s' t'

/-- R80, R211, R214: a command leaves one of the statuses tabled for it, and no step ever makes STATUS 0x02, TransportTimeout. -/
def Obligations.StatusIsOneTabledForTheCommand : Prop :=
  (∀ (i : Instr) (s t : State), exec i s = .next t → t.status ∈ statusesOf i) ∧
  (∀ s t : State, step s = .next t → t.status = 0x02 → s.status = 0x02)

/-- R37, R150: a command faults exactly when an element of the range its rule reads is unwritten, its range checks passed; the fault
is UnwrittenRead, it carries no state, and no command is ever refused. (That the fault carries the buffer and the first such index is
the model's choice: log 5. That PARSE's only range check before its read is OP_LEN > 260, so that an OP_LEN of 1 to 4 over an
unwritten byte is this fault and not FrameTooShort, is the model's deduction from the order of R150's lines: log 8.) -/
def Obligations.CommandsFaultExactlyOnUnwrittenElements : Prop :=
  ∀ (i : Instr) (s : State),
    (∀ f, exec i s = .fault f ↔
      ∃ b n k, readRangeOf i s = some (b, n) ∧ k < n ∧ s.isWritten b k = false ∧
        (∀ j, j < k → s.isWritten b j = true) ∧ f = .unwrittenRead b k) ∧
    (∀ why, exec i s ≠ .refused why)

/-- R35, R37, R53: from a state that meets the invariant, the host reads every byte of the last decoded text without a fault, and
is given the byte TB holds. (That it is appended to `returned`, zero-extended, is the model's own record: log 3.) -/
def Obligations.DecodedTextIsReadable : Prop :=
  ∀ (s : State) (i : Nat) (rest : List Input), s.Inv → i < s.resTlen.toNat → s.pending = .access (.rdt i) :: rest →
    ∃ b : Byte, s.tb.read i = some b ∧
      step s = .next { s with pending := rest, returned := s.returned ++ [BitVec.ofNat 32 b.toNat] }

/-- R224, R243: a step completes whenever the next access is well formed and, if it reads elements, those elements are written. -/
def Obligations.StepCompletesOnWrittenOperands : Prop :=
  ∀ (s : State) (e : Input) (rest : List Input), s.pending = e :: rest →
    (∀ a, e = .access a → a.wf = true ∧ (∀ b i, a.readsElement = some (b, i) → s.isWritten b i = true) ∧
      (∀ v i b n, a = .wr .cmd v → decode [v.setWidth 8] = .ok (i, []) → readRangeOf i s = some (b, n) →
        ∀ k, k < n → s.isWritten b k = true)) →
    ∃ t, step s = .next t ∧ t.pending = rest

end
end

