-- ==== Sys2Proof/Laws/Memory.lean ====
section
/-! SUPPORT. The laws of a buffer: what a write and a range write leave to be read, that every operation keeps the canonical form
and the bounds, what a range read answers, and that canonical buffers that read alike are equal. -/

namespace Sys2Proof.Machine

variable {w : Nat}

@[simp] theorem Memory.read_nil (i : Nat) : Memory.read ([] : Memory w) i = none := rfl

/-- A read after a write gives the value written, and any other element as before. -/
theorem Memory.read_write (m : Memory w) (i j : Nat) (v : BitVec w) :
    (m.write i v).read j = if j = i then some v else m.read j := by
  induction m with
  | nil => simp [Memory.write, Memory.read]
  | cons c rest ih =>
    obtain ⟨k, b⟩ := c
    simp only [Memory.write]
    split
    · simp [Memory.read]
    · split
      · next h => subst h; simp only [Memory.read]; split <;> simp_all
      · simp only [Memory.read, ih]
        split <;> split <;> simp_all

@[simp] theorem Memory.read_write_same (m : Memory w) (i : Nat) (v : BitVec w) : (m.write i v).read i = some v := by
  simp [Memory.read_write]

theorem Memory.read_write_other (m : Memory w) {i j : Nat} (v : BitVec w) (h : j ≠ i) :
    (m.write i v).read j = m.read j := by
  simp [Memory.read_write, h]

/-- What a range write leaves to be read: its values in its range, everything else as before. -/
theorem Memory.read_writeList (m : Memory w) (start j : Nat) (vs : List (BitVec w)) :
    (m.writeList start vs).read j =
      if start ≤ j ∧ j < start + vs.length then vs[j - start]? else m.read j := by
  induction vs generalizing m start with
  | nil => simp [Memory.writeList]
  | cons v vs ih =>
    rw [Memory.writeList, ih, Memory.read_write]
    by_cases hj : j = start
    · subst hj; simp
    · by_cases h : start ≤ j ∧ j < start + (vs.length + 1)
      · have e : j - start = (j - (start + 1)) + 1 := by omega
        have h1 : start + 1 ≤ j ∧ j < start + 1 + vs.length := by omega
        simp [h, h1, e]
      · have h1 : ¬ (start + 1 ≤ j ∧ j < start + 1 + vs.length) := by omega
        rw [if_neg h1, if_neg hj, if_neg (by simpa using h)]

theorem Memory.read_writeList_inside (m : Memory w) (start k : Nat) (vs : List (BitVec w)) (h : k < vs.length) :
    (m.writeList start vs).read (start + k) = some vs[k] := by
  rw [Memory.read_writeList]
  simp [h]

theorem Memory.read_writeList_outside (m : Memory w) (start j : Nat) (vs : List (BitVec w))
    (h : j < start ∨ start + vs.length ≤ j) : (m.writeList start vs).read j = m.read j := by
  rw [Memory.read_writeList, if_neg (by omega)]

/-- A sequence a buffer holds, and a range write after it: the buffer holds both in a row. -/
theorem Memory.read_append {m : Memory w} {xs : List (BitVec w)} (ys : List (BitVec w))
    (hx : ∀ i, (h : i < xs.length) → m.read i = some xs[i]) (i : Nat) (h : i < (xs ++ ys).length) :
    (m.writeList xs.length ys).read i = some (xs ++ ys)[i] := by
  rw [List.length_append] at h
  by_cases hi : i < xs.length
  · rw [Memory.read_writeList_outside _ _ _ _ (.inl hi), hx i hi, List.getElem_append_left hi]
  · have := Memory.read_writeList_inside m xs.length (i - xs.length) ys (by omega)
    rw [show xs.length + (i - xs.length) = i by omega] at this
    rw [this, List.getElem_append_right (by omega)]

@[simp] theorem Memory.writeList_nil (m : Memory w) (start : Nat) : m.writeList start [] = m := rfl

/-- A range write never makes a written element unwritten. -/
theorem Memory.isSome_read_writeList (m : Memory w) (start j : Nat) (vs : List (BitVec w))
    (h : (m.read j).isSome) : ((m.writeList start vs).read j).isSome := by
  rw [Memory.read_writeList]
  split
  · simp; omega
  · exact h

theorem Memory.wf_cons_cons (i j : Nat) (a b : BitVec w) (rest : Memory w) :
    Memory.wf ((i, a) :: (j, b) :: rest) = true ↔ i < j ∧ Memory.wf ((j, b) :: rest) = true := by
  simp [Memory.wf]

/-- Every index of a canonical buffer's tail is above the first one. -/
theorem Memory.wf_lt {i : Nat} {a : BitVec w} {rest : Memory w} (h : Memory.wf ((i, a) :: rest) = true) :
    (∀ c ∈ rest, i < c.1) ∧ Memory.wf rest = true := by
  induction rest generalizing i a with
  | nil => simp [Memory.wf]
  | cons c rest ih =>
    obtain ⟨j, b⟩ := c
    rw [Memory.wf_cons_cons] at h
    refine ⟨?_, h.2⟩
    intro d hd
    rcases List.mem_cons.1 hd with rfl | hd
    · exact h.1
    · exact Nat.lt_trans h.1 ((ih h.2).1 d hd)

theorem Memory.wf_cons {i : Nat} {a : BitVec w} {rest : Memory w} :
    Memory.wf ((i, a) :: rest) = true ↔ (∀ c ∈ rest, i < c.1) ∧ Memory.wf rest = true := by
  refine ⟨Memory.wf_lt, fun ⟨h1, h2⟩ => ?_⟩
  cases rest with
  | nil => rfl
  | cons c rest =>
    obtain ⟨j, b⟩ := c
    rw [Memory.wf_cons_cons]
    exact ⟨h1 (j, b) (by simp), h2⟩

/-- The entries of a write are the entry written and entries there were. -/
theorem Memory.mem_write {m : Memory w} {i : Nat} {v : BitVec w} {c : Nat × BitVec w} (h : c ∈ m.write i v) :
    c = (i, v) ∨ c ∈ m := by
  induction m with
  | nil => simpa [Memory.write] using h
  | cons d rest ih =>
    obtain ⟨j, b⟩ := d
    simp only [Memory.write] at h
    split at h
    · simpa using h
    · split at h
      · rcases List.mem_cons.1 h with h | h
        · exact .inl h
        · exact .inr (List.mem_cons_of_mem _ h)
      · rcases List.mem_cons.1 h with h | h
        · exact .inr (h ▸ List.mem_cons_self)
        · exact (ih h).imp id (List.mem_cons_of_mem _)

/-- A write keeps the canonical form. -/
theorem Memory.wf_write {m : Memory w} (i : Nat) (v : BitVec w) (h : m.wf = true) : (m.write i v).wf = true := by
  induction m with
  | nil => rfl
  | cons c rest ih =>
    obtain ⟨j, b⟩ := c
    simp only [Memory.write]
    split
    · next hij => rw [Memory.wf_cons_cons]; exact ⟨hij, h⟩
    · split
      · next hij => subst hij; exact Memory.wf_cons.2 (Memory.wf_lt h)
      · rw [Memory.wf_cons]
        refine ⟨fun c hc => ?_, ih (Memory.wf_lt h).2⟩
        rcases Memory.mem_write hc with rfl | hc
        · show j < i
          omega
        · exact (Memory.wf_lt h).1 c hc

/-- A range write keeps the canonical form. -/
theorem Memory.wf_writeList {m : Memory w} (start : Nat) (vs : List (BitVec w)) (h : m.wf = true) :
    (m.writeList start vs).wf = true := by
  induction vs generalizing m start with
  | nil => exact h
  | cons v vs ih => exact ih _ (Memory.wf_write start v h)

/-- A write inside the buffer keeps every entry inside it. -/
theorem Memory.inBounds_write {m : Memory w} {size i : Nat} (v : BitVec w) (hi : i < size) (h : m.inBounds size = true) :
    (m.write i v).inBounds size = true := by
  simp only [Memory.inBounds, List.all_eq_true, decide_eq_true_eq] at h ⊢
  intro c hc
  rcases Memory.mem_write hc with rfl | hc
  · exact hi
  · exact h c hc

theorem Memory.inBounds_writeList {m : Memory w} {size start : Nat} (vs : List (BitVec w)) (hi : start + vs.length ≤ size)
    (h : m.inBounds size = true) : (m.writeList start vs).inBounds size = true := by
  induction vs generalizing m start with
  | nil => exact h
  | cons v vs ih =>
    rw [List.length_cons] at hi
    exact ih (by omega) (Memory.inBounds_write v (by omega) h)

theorem Memory.readRange_succ_of_none {m : Memory w} {start : Nat} (n : Nat) (h : m.read start = none) :
    m.readRange start (n + 1) = .error start := by
  simp [Memory.readRange, h]

theorem Memory.readRange_succ_of_some {m : Memory w} {start : Nat} {v : BitVec w} (n : Nat) (h : m.read start = some v) :
    m.readRange start (n + 1) = (m.readRange (start + 1) n).map (v :: ·) := by
  simp only [Memory.readRange, h]
  cases m.readRange (start + 1) n <;> rfl

/-- A range read answers the elements exactly when all of them are written, in order. -/
theorem Memory.readRange_ok_iff (m : Memory w) (start n : Nat) (vs : List (BitVec w)) :
    m.readRange start n = .ok vs ↔ vs.length = n ∧ ∀ k, (h : k < vs.length) → m.read (start + k) = some vs[k] := by
  induction n generalizing start vs with
  | zero =>
    simp only [Memory.readRange, Except.ok.injEq]
    constructor
    · rintro rfl; simp
    · rintro ⟨h, -⟩; exact (List.length_eq_zero_iff.1 h).symm
  | succ n ih =>
    cases vs with
    | nil =>
      cases hr : m.read start with
      | none => simp [Memory.readRange_succ_of_none n hr]
      | some v =>
        rw [Memory.readRange_succ_of_some n hr]
        cases m.readRange (start + 1) n <;> simp [Except.map]
    | cons u us =>
      have split_read : (∀ k, (h : k < (u :: us).length) → m.read (start + k) = some (u :: us)[k]) ↔
          m.read start = some u ∧ ∀ k, (h : k < us.length) → m.read (start + 1 + k) = some us[k] := by
        constructor
        · intro h
          refine ⟨h 0 (by simp), fun k hk => ?_⟩
          have := h (k + 1) (by simpa using hk)
          rw [Nat.add_assoc, Nat.add_comm 1 k]
          simpa using this
        · rintro ⟨h0, h1⟩ k hk
          cases k with
          | zero => simpa using h0
          | succ k =>
            have := h1 k (by simpa using hk)
            rw [Nat.add_assoc, Nat.add_comm 1 k] at this
            simpa using this
      rw [split_read]
      cases hr : m.read start with
      | none => simp [Memory.readRange_succ_of_none n hr]
      | some v =>
        have := ih (start + 1) us
        rw [Memory.readRange_succ_of_some n hr]
        cases hm : m.readRange (start + 1) n with
        | error e =>
          rw [hm] at this
          simp only [reduceCtorEq, false_iff] at this
          simp only [Except.map, reduceCtorEq, List.length_cons, Nat.add_right_cancel_iff, false_iff]
          exact fun h => this ⟨h.1, h.2.2⟩
        | ok ws =>
          rw [hm, Except.ok.injEq] at this
          simp only [Except.map, Except.ok.injEq, List.cons.injEq, List.length_cons, Nat.add_right_cancel_iff,
            Option.some.injEq, this]
          tauto

/-- A range read answers an index exactly when that is the first unwritten element of the range. -/
theorem Memory.readRange_error_iff (m : Memory w) (start n i : Nat) :
    m.readRange start n = .error i ↔
      (start ≤ i ∧ i < start + n) ∧ m.read i = none ∧ ∀ j, start ≤ j → j < i → (m.read j).isSome := by
  induction n generalizing start with
  | zero => simp [Memory.readRange]
  | succ n ih =>
    cases hr : m.read start with
    | none =>
      rw [Memory.readRange_succ_of_none n hr, Except.error.injEq]
      constructor
      · rintro rfl
        exact ⟨by omega, hr, fun j h1 h2 => by omega⟩
      · rintro ⟨h1, h2, h3⟩
        by_contra hne
        have := h3 start (by omega) (by omega)
        simp [hr] at this
    | some v =>
      have drop_map : (m.readRange (start + 1) n).map (v :: ·) = .error i ↔ m.readRange (start + 1) n = .error i := by
        cases m.readRange (start + 1) n <;> simp [Except.map]
      rw [Memory.readRange_succ_of_some n hr, drop_map, ih]
      constructor
      · rintro ⟨h1, h2, h3⟩
        refine ⟨by omega, h2, fun j h4 h5 => ?_⟩
        by_cases hj : j = start
        · subst hj; simp [hr]
        · exact h3 j (by omega) h5
      · rintro ⟨h1, h2, h3⟩
        have hne : i ≠ start := by rintro rfl; simp [hr] at h2
        exact ⟨by omega, h2, fun j h4 h5 => h3 j (by omega) h5⟩

/-- Range reads depend on the range's elements only. -/
theorem Memory.readRange_congr {m m' : Memory w} {start n : Nat}
    (h : ∀ j, start ≤ j → j < start + n → m.read j = m'.read j) : m.readRange start n = m'.readRange start n := by
  induction n generalizing start with
  | zero => rfl
  | succ n ih =>
    simp only [Memory.readRange]
    rw [h start (by omega) (by omega), ih (fun j h1 h2 => h j (by omega) (by omega))]

/-- What a range read gives has the range's length. -/
theorem Memory.length_of_readRange {m : Memory w} {start n : Nat} {vs : List (BitVec w)}
    (h : m.readRange start n = .ok vs) : vs.length = n :=
  ((Memory.readRange_ok_iff m start n vs).1 h).1

theorem Memory.read_eq_none_of_lt {m : Memory w} {i : Nat} (h : ∀ c ∈ m, i < c.1) : m.read i = none := by
  induction m with
  | nil => rfl
  | cons c rest ih =>
    obtain ⟨j, b⟩ := c
    have : i < j := h (j, b) (by simp)
    simp only [Memory.read]
    rw [if_neg (by omega)]
    exact ih fun c hc => h c (by simp [hc])

/-- Canonical buffers that read alike are equal: equal contents are equal data. -/
theorem Memory.eq_of_read_eq {m m' : Memory w} (h : m.wf = true) (h' : m'.wf = true)
    (hr : ∀ i, m.read i = m'.read i) : m = m' := by
  induction m generalizing m' with
  | nil =>
    cases m' with
    | nil => rfl
    | cons c rest => simpa [Memory.read] using hr c.1
  | cons c rest ih =>
    obtain ⟨i, a⟩ := c
    cases m' with
    | nil => simpa [Memory.read] using hr i
    | cons c' rest' =>
      obtain ⟨j, b⟩ := c'
      obtain ⟨hlt, hwf⟩ := Memory.wf_lt h
      obtain ⟨hlt', hwf'⟩ := Memory.wf_lt h'
      have hij : i = j := by
        rcases Nat.lt_trichotomy i j with hc | hc | hc
        · have e := hr i
          simp only [Memory.read, if_true, if_neg (Nat.ne_of_lt hc)] at e
          rw [Memory.read_eq_none_of_lt fun c hm => Nat.lt_trans hc (hlt' c hm)] at e
          simp at e
        · exact hc
        · have e := hr j
          simp only [Memory.read, if_true, if_neg (Nat.ne_of_lt hc)] at e
          rw [Memory.read_eq_none_of_lt fun c hm => Nat.lt_trans hc (hlt c hm)] at e
          simp at e
      subst hij
      have hab : a = b := by simpa [Memory.read] using hr i
      subst hab
      refine congrArg _ (ih hwf hwf' fun k => ?_)
      by_cases hk : k = i
      · subst hk
        rw [Memory.read_eq_none_of_lt hlt, Memory.read_eq_none_of_lt hlt']
      · simpa [Memory.read, hk] using hr k

end Sys2Proof.Machine
end

