-- ==== Sys2Proof/Laws/State.lean ====
section
/-! SUPPORT. What each named update of State does to each field, true by `rfl`, so that no proof unfolds a record update. -/

namespace Sys2Proof.Machine

section SetStatus

variable (s : State) (st : Status)

@[simp] theorem State.setStatus_opData : (s.setStatus st).opData = s.opData := rfl
@[simp] theorem State.setStatus_opSlave : (s.setStatus st).opSlave = s.opSlave := rfl
@[simp] theorem State.setStatus_opFc : (s.setStatus st).opFc = s.opFc := rfl
@[simp] theorem State.setStatus_opAddr : (s.setStatus st).opAddr = s.opAddr := rfl
@[simp] theorem State.setStatus_opCount : (s.setStatus st).opCount = s.opCount := rfl
@[simp] theorem State.setStatus_opLen : (s.setStatus st).opLen = s.opLen := rfl
@[simp] theorem State.setStatus_defReg : (s.setStatus st).defReg = s.defReg := rfl
@[simp] theorem State.setStatus_wcnt : (s.setStatus st).wcnt = s.wcnt := rfl
@[simp] theorem State.setStatus_status : (s.setStatus st).status = st.code := rfl
@[simp] theorem State.setStatus_acc : (s.setStatus st).acc = s.acc := rfl
@[simp] theorem State.setStatus_resCrc : (s.setStatus st).resCrc = s.resCrc := rfl
@[simp] theorem State.setStatus_resValid : (s.setStatus st).resValid = s.resValid := rfl
@[simp] theorem State.setStatus_excCode : (s.setStatus st).excCode = s.excCode := rfl
@[simp] theorem State.setStatus_resBc : (s.setStatus st).resBc = s.resBc := rfl
@[simp] theorem State.setStatus_resVal : (s.setStatus st).resVal = s.resVal := rfl
@[simp] theorem State.setStatus_resScale : (s.setStatus st).resScale = s.resScale := rfl
@[simp] theorem State.setStatus_resTlen : (s.setStatus st).resTlen = s.resTlen := rfl
@[simp] theorem State.setStatus_fb : (s.setStatus st).fb = s.fb := rfl
@[simp] theorem State.setStatus_wb : (s.setStatus st).wb = s.wb := rfl
@[simp] theorem State.setStatus_tb : (s.setStatus st).tb = s.tb := rfl
@[simp] theorem State.setStatus_pending : (s.setStatus st).pending = s.pending := rfl
@[simp] theorem State.setStatus_returned : (s.setStatus st).returned = s.returned := rfl

end SetStatus

section Deliver

variable (s : State) (v : DWord)

@[simp] theorem State.deliver_opData : (s.deliver v).opData = s.opData := rfl
@[simp] theorem State.deliver_opSlave : (s.deliver v).opSlave = s.opSlave := rfl
@[simp] theorem State.deliver_opFc : (s.deliver v).opFc = s.opFc := rfl
@[simp] theorem State.deliver_opAddr : (s.deliver v).opAddr = s.opAddr := rfl
@[simp] theorem State.deliver_opCount : (s.deliver v).opCount = s.opCount := rfl
@[simp] theorem State.deliver_opLen : (s.deliver v).opLen = s.opLen := rfl
@[simp] theorem State.deliver_defReg : (s.deliver v).defReg = s.defReg := rfl
@[simp] theorem State.deliver_wcnt : (s.deliver v).wcnt = s.wcnt := rfl
@[simp] theorem State.deliver_status : (s.deliver v).status = s.status := rfl
@[simp] theorem State.deliver_acc : (s.deliver v).acc = s.acc := rfl
@[simp] theorem State.deliver_resCrc : (s.deliver v).resCrc = s.resCrc := rfl
@[simp] theorem State.deliver_resValid : (s.deliver v).resValid = s.resValid := rfl
@[simp] theorem State.deliver_excCode : (s.deliver v).excCode = s.excCode := rfl
@[simp] theorem State.deliver_resBc : (s.deliver v).resBc = s.resBc := rfl
@[simp] theorem State.deliver_resVal : (s.deliver v).resVal = s.resVal := rfl
@[simp] theorem State.deliver_resScale : (s.deliver v).resScale = s.resScale := rfl
@[simp] theorem State.deliver_resTlen : (s.deliver v).resTlen = s.resTlen := rfl
@[simp] theorem State.deliver_fb : (s.deliver v).fb = s.fb := rfl
@[simp] theorem State.deliver_wb : (s.deliver v).wb = s.wb := rfl
@[simp] theorem State.deliver_tb : (s.deliver v).tb = s.tb := rfl
@[simp] theorem State.deliver_pending : (s.deliver v).pending = s.pending := rfl
@[simp] theorem State.deliver_returned : (s.deliver v).returned = s.returned ++ [v] := rfl

end Deliver

section ResetBlock

variable (s : State)

@[simp] theorem State.resetBlock_opData : s.resetBlock.opData = State.reset.opData := rfl
@[simp] theorem State.resetBlock_opSlave : s.resetBlock.opSlave = State.reset.opSlave := rfl
@[simp] theorem State.resetBlock_opFc : s.resetBlock.opFc = State.reset.opFc := rfl
@[simp] theorem State.resetBlock_opAddr : s.resetBlock.opAddr = State.reset.opAddr := rfl
@[simp] theorem State.resetBlock_opCount : s.resetBlock.opCount = State.reset.opCount := rfl
@[simp] theorem State.resetBlock_opLen : s.resetBlock.opLen = State.reset.opLen := rfl
@[simp] theorem State.resetBlock_defReg : s.resetBlock.defReg = State.reset.defReg := rfl
@[simp] theorem State.resetBlock_wcnt : s.resetBlock.wcnt = State.reset.wcnt := rfl
@[simp] theorem State.resetBlock_status : s.resetBlock.status = State.reset.status := rfl
@[simp] theorem State.resetBlock_acc : s.resetBlock.acc = State.reset.acc := rfl
@[simp] theorem State.resetBlock_resCrc : s.resetBlock.resCrc = State.reset.resCrc := rfl
@[simp] theorem State.resetBlock_resValid : s.resetBlock.resValid = State.reset.resValid := rfl
@[simp] theorem State.resetBlock_excCode : s.resetBlock.excCode = State.reset.excCode := rfl
@[simp] theorem State.resetBlock_resBc : s.resetBlock.resBc = State.reset.resBc := rfl
@[simp] theorem State.resetBlock_resVal : s.resetBlock.resVal = State.reset.resVal := rfl
@[simp] theorem State.resetBlock_resScale : s.resetBlock.resScale = State.reset.resScale := rfl
@[simp] theorem State.resetBlock_resTlen : s.resetBlock.resTlen = State.reset.resTlen := rfl
@[simp] theorem State.resetBlock_fb : s.resetBlock.fb = State.reset.fb := rfl
@[simp] theorem State.resetBlock_wb : s.resetBlock.wb = State.reset.wb := rfl
@[simp] theorem State.resetBlock_tb : s.resetBlock.tb = State.reset.tb := rfl
@[simp] theorem State.resetBlock_pending : s.resetBlock.pending = s.pending := rfl
@[simp] theorem State.resetBlock_returned : s.resetBlock.returned = s.returned := rfl

end ResetBlock

end Sys2Proof.Machine
end

