-- ==== Sys2Proof/Laws/Ops.lean ====
section
/-! SUPPORT. Everything the shared operations can do, said once: ending a command, fetching the range a command reads, and the
algebra of the checksum. -/

namespace Sys2Proof.Machine

/-- `finish` answers a next state and nothing else. -/
theorem finish_eq_next_iff {st : Status} {s t : State} : finish st s = .next t ↔ t = s.setStatus st := by
  simp [finish, eq_comm]

@[simp] theorem finish_ne_fault (st : Status) (s : State) (f : Fault) : finish st s ≠ .fault f := by simp [finish]

@[simp] theorem finish_ne_refused (st : Status) (s : State) (r : Refusal) : finish st s ≠ .refused r := by simp [finish]

/-- A frame that FB holds is what a range read of its length answers. -/
theorem readRange_of_frameIs {s : State} {raw : List Byte} (h : s.frameIs raw) :
    s.fb.readRange 0 raw.length = .ok raw :=
  (Memory.readRange_ok_iff _ _ _ _).2 ⟨rfl, fun k hk => by simpa using h k hk⟩

theorem frameIs_of_readRange {s : State} {n : Nat} {raw : List Byte} (h : s.fb.readRange 0 n = .ok raw) :
    raw.length = n ∧ s.frameIs raw := by
  obtain ⟨h1, h2⟩ := (Memory.readRange_ok_iff _ _ _ _).1 h
  exact ⟨h1, fun i hi => by simpa using h2 i hi⟩

theorem readRange_of_wordsAre {s : State} {words : List Word} (h : s.wordsAre words) :
    s.wb.readRange 0 words.length = .ok words :=
  (Memory.readRange_ok_iff _ _ _ _).2 ⟨rfl, fun k hk => by simpa using h k hk⟩

theorem wordsAre_of_readRange {s : State} {n : Nat} {words : List Word} (h : s.wb.readRange 0 n = .ok words) :
    words.length = n ∧ s.wordsAre words := by
  obtain ⟨h1, h2⟩ := (Memory.readRange_ok_iff _ _ _ _).1 h
  exact ⟨h1, fun i hi => by simpa using h2 i hi⟩

/-- `withFrame` on a frame FB holds runs the remainder on it. -/
theorem withFrame_of_frameIs {s : State} {raw : List Byte} (h : s.frameIs raw) (go : List Byte → Result) :
    withFrame raw.length s go = go raw := by
  simp [withFrame, readRange_of_frameIs h]

/-- `withWords` on words WB holds runs the remainder on them. -/
theorem withWords_of_wordsAre {s : State} {words : List Word} (h : s.wordsAre words) (go : List Word → Result) :
    withWords words.length s go = go words := by
  simp [withWords, readRange_of_wordsAre h]

/-- `withFrame` either runs the remainder on what FB holds, or faults at the first unwritten byte. -/
theorem withFrame_cases (n : Nat) (s : State) (go : List Byte → Result) :
    (∃ raw, raw.length = n ∧ s.frameIs raw ∧ withFrame n s go = go raw) ∨
    (∃ i, i < n ∧ s.fb.read i = none ∧ (∀ j, j < i → (s.fb.read j).isSome) ∧ withFrame n s go = unwritten .fb i) := by
  unfold withFrame
  cases h : s.fb.readRange 0 n with
  | ok raw =>
    obtain ⟨h1, h2⟩ := frameIs_of_readRange h
    exact .inl ⟨raw, h1, h2, rfl⟩
  | error i =>
    obtain ⟨h1, h2, h3⟩ := (Memory.readRange_error_iff _ _ _ _).1 h
    exact .inr ⟨i, by omega, h2, fun j hj => h3 j (by omega) hj, rfl⟩

/-- `withWords` either runs the remainder on what WB holds, or faults at the first unwritten word. -/
theorem withWords_cases (n : Nat) (s : State) (go : List Word → Result) :
    (∃ words, words.length = n ∧ s.wordsAre words ∧ withWords n s go = go words) ∨
    (∃ i, i < n ∧ s.wb.read i = none ∧ (∀ j, j < i → (s.wb.read j).isSome) ∧ withWords n s go = unwritten .wb i) := by
  unfold withWords
  cases h : s.wb.readRange 0 n with
  | ok words =>
    obtain ⟨h1, h2⟩ := wordsAre_of_readRange h
    exact .inl ⟨words, h1, h2, rfl⟩
  | error i =>
    obtain ⟨h1, h2, h3⟩ := (Memory.readRange_error_iff _ _ _ _).1 h
    exact .inr ⟨i, by omega, h2, fun j hj => h3 j (by omega) hj, rfl⟩

/-- `withFrame` answers a next state only by running the remainder on a frame FB holds. -/
theorem withFrame_next {n : Nat} {s t : State} {go : List Byte → Result} (h : withFrame n s go = .next t) :
    ∃ raw, raw.length = n ∧ s.frameIs raw ∧ go raw = .next t := by
  obtain ⟨raw, h1, h2, h3⟩ | ⟨i, -, -, -, h3⟩ := withFrame_cases n s go
  · exact ⟨raw, h1, h2, h3 ▸ h⟩
  · rw [h3] at h; simp [unwritten] at h

/-- `withWords` answers a next state only by running the remainder on words WB holds. -/
theorem withWords_next {n : Nat} {s t : State} {go : List Word → Result} (h : withWords n s go = .next t) :
    ∃ words, words.length = n ∧ s.wordsAre words ∧ go words = .next t := by
  obtain ⟨words, h1, h2, h3⟩ | ⟨i, -, -, -, h3⟩ := withWords_cases n s go
  · exact ⟨words, h1, h2, h3 ▸ h⟩
  · rw [h3] at h; simp [unwritten] at h

/-- The checksum of a longer sequence is one more byte step. -/
theorem crc16_snoc (bytes : List Byte) (b : Byte) : crc16 (bytes ++ [b]) = crcStep (crc16 bytes) b := by
  simp [crc16]

/-- The shift is linear over XOR. -/
theorem crcShift_xor (a b : Word) : crcShift (a ^^^ b) = crcShift a ^^^ crcShift b := by
  simp only [crcShift, BitVec.getLsbD_xor, BitVec.ushiftRight_xor_distrib]
  cases a.getLsbD 0 <;> cases b.getLsbD 0
  · rfl
  · simp [BitVec.xor_assoc]
  · simp only [Bool.xor_false, if_true, Bool.false_eq_true, if_false]
    rw [BitVec.xor_assoc, BitVec.xor_assoc, BitVec.xor_comm (b >>> 1)]
  · simp only [Bool.xor_self, Bool.false_eq_true, if_false, if_true]
    have : ∀ x y p : Word, x ^^^ y = (x ^^^ p) ^^^ (y ^^^ p) := by
      intro x y p
      rw [BitVec.xor_assoc, BitVec.xor_comm y p, ← BitVec.xor_assoc p p y, BitVec.xor_self, BitVec.zero_xor]
    exact this _ _ _

theorem crcShifts_xor (n : Nat) (a b : Word) : crcShifts n (a ^^^ b) = crcShifts n a ^^^ crcShifts n b := by
  induction n generalizing a b with
  | zero => rfl
  | succ n ih => rw [crcShifts, crcShift_xor, ih, ← crcShifts, ← crcShifts]

/-- Only zero shifts to zero: the bit shifted out can be read off bit 15 of the result (R110). -/
theorem crcShift_eq_zero {a : Word} (h : crcShift a = 0) : a = 0 := by
  have bits : ∀ i, i < 16 → (crcShift a).getLsbD i = false := by intro i _; simp [h]
  have low : a.getLsbD 0 = false := by
    cases h0 : a.getLsbD 0 with
    | false => rfl
    | true =>
      have := bits 15 (by omega)
      simp [crcShift, h0] at this
  have shifted : a >>> 1 = 0 := by
    rw [crcShift, low] at h
    simpa using h
  apply BitVec.eq_of_getLsbD_eq
  intro i hi
  cases i with
  | zero => simpa using low
  | succ i =>
    have := congrArg (fun x : Word => x.getLsbD i) shifted
    simpa [BitVec.getLsbD_ushiftRight, Nat.add_comm 1 i] using this

theorem crcShifts_eq_zero {n : Nat} {a : Word} (h : crcShifts n a = 0) : a = 0 := by
  induction n generalizing a with
  | zero => exact h
  | succ n ih => exact crcShift_eq_zero (ih h)

/-- The two bytes of a word give the word back. -/
theorem joinBytes_hi_lo (w : Word) : joinBytes (hiByte w) (loByte w) = w := by
  apply BitVec.eq_of_toNat_eq
  simp only [joinBytes, hiByte, loByte, BitVec.toNat_append, BitVec.extractLsb'_toNat]
  rw [← Nat.shiftLeft_add_eq_or_of_lt (Nat.mod_lt _ (by decide))]
  have := w.isLt
  omega

@[simp] theorem hiByte_joinBytes (hi lo : Byte) : hiByte (joinBytes hi lo) = hi := by
  apply BitVec.eq_of_toNat_eq
  simp only [joinBytes, hiByte, BitVec.toNat_append, BitVec.extractLsb'_toNat]
  rw [← Nat.shiftLeft_add_eq_or_of_lt lo.isLt]
  have := hi.isLt
  have := lo.isLt
  omega

@[simp] theorem loByte_joinBytes (hi lo : Byte) : loByte (joinBytes hi lo) = lo := by
  apply BitVec.eq_of_toNat_eq
  simp only [joinBytes, loByte, BitVec.toNat_append, BitVec.extractLsb'_toNat]
  rw [← Nat.shiftLeft_add_eq_or_of_lt lo.isLt]
  have := hi.isLt
  have := lo.isLt
  omega

/-- `{hi, lo} = hi * 256 + lo` (R11). -/
theorem toNat_joinBytes (hi lo : Byte) : (joinBytes hi lo).toNat = hi.toNat * 256 + lo.toNat := by
  simp only [joinBytes, BitVec.toNat_append]
  rw [← Nat.shiftLeft_add_eq_or_of_lt lo.isLt]
  omega

theorem toNat_hiByte (w : Word) : (hiByte w).toNat = w.toNat / 256 := by
  simp only [hiByte, BitVec.extractLsb'_toNat]
  have := w.isLt
  omega

theorem toNat_loByte (w : Word) : (loByte w).toNat = w.toNat % 256 := by
  simp [loByte, BitVec.extractLsb'_toNat]

end Sys2Proof.Machine
end

