-- ==== Sys2Proof/Laws/Exec.lean ====
section
/-! SUPPORT. What each command can answer: one inversion lemma per command, and the facts about PARSE's report and DECODE's
result that its callers need. -/

namespace Sys2Proof.Machine

theorem execCrcCompute_next {s t : State} (h : execCrcCompute s = .next t) :
    (Config.fbSize < s.frameLen ∧ t = s.setStatus .invalidArgument) ∨
    (s.frameLen ≤ Config.fbSize ∧ ∃ raw, raw.length = s.frameLen ∧ s.frameIs raw ∧
      t = State.setStatus { s with resCrc := crc16 raw } .ok) := by
  unfold execCrcCompute at h
  split at h
  · next hn => exact .inl ⟨hn, finish_eq_next_iff.1 h⟩
  · next hn =>
    obtain ⟨raw, h1, h2, h3⟩ := withFrame_next h
    exact .inr ⟨by omega, raw, h1, h2, finish_eq_next_iff.1 h3⟩

theorem execCrcAppend_next {s t : State} (h : execCrcAppend s = .next t) :
    (Config.fbSize - 2 < s.frameLen ∧ t = s.setStatus .invalidArgument) ∨
    (s.frameLen ≤ Config.fbSize - 2 ∧ ∃ raw, raw.length = s.frameLen ∧ s.frameIs raw ∧
      t = State.setStatus { s with fb := s.fb.writeList s.frameLen (crcTrailer (crc16 raw)), resCrc := crc16 raw } .ok) := by
  unfold execCrcAppend at h
  split at h
  · next hn => exact .inl ⟨hn, finish_eq_next_iff.1 h⟩
  · next hn =>
    obtain ⟨raw, h1, h2, h3⟩ := withFrame_next h
    exact .inr ⟨by omega, raw, h1, h2, finish_eq_next_iff.1 h3⟩

theorem execCrcValidate_next {s t : State} (h : execCrcValidate s = .next t) :
    (Config.fbSize < s.frameLen ∧ t = s.setStatus .invalidArgument) ∨
    (s.frameLen < 2 ∧ t = State.setStatus { s with resValid := false } .ok) ∨
    (2 ≤ s.frameLen ∧ s.frameLen ≤ Config.fbSize ∧ ∃ raw, raw.length = s.frameLen ∧ s.frameIs raw ∧
      t = State.setStatus { s with
        resCrc := crc16 (raw.take (s.frameLen - 2))
        resValid := trailerMatches (crc16 (raw.take (s.frameLen - 2))) raw (s.frameLen - 2) } .ok) := by
  unfold execCrcValidate at h
  split at h
  · next hn => exact .inl ⟨hn, finish_eq_next_iff.1 h⟩
  · next hn =>
    split at h
    · next h2 => exact .inr (.inl ⟨h2, finish_eq_next_iff.1 h⟩)
    · next hn2 =>
      obtain ⟨raw, h1, h2, h3⟩ := withFrame_next h
      exact .inr (.inr ⟨by omega, by omega, raw, h1, h2, finish_eq_next_iff.1 h3⟩)

theorem execBuildRead_next {s t : State} (h : execBuildRead s = .next t) :
    ((s.opCount.toNat = 0 ∨ Config.maxRegisterCount < s.opCount.toNat) ∧ t = s.setStatus .invalidArgument) ∨
    ((1 ≤ s.opCount.toNat ∧ s.opCount.toNat ≤ Config.maxRegisterCount) ∧
      t = State.setStatus { s with
        fb := s.fb.writeList 0 (requestBody s.opSlave s.opAddr s.opCount ++
          crcTrailer (crc16 (requestBody s.opSlave s.opAddr s.opCount)))
        resCrc := crc16 (requestBody s.opSlave s.opAddr s.opCount) } .ok) := by
  unfold execBuildRead at h
  split at h
  · next hn => exact .inl ⟨hn, finish_eq_next_iff.1 h⟩
  · next hn => exact .inr ⟨by omega, finish_eq_next_iff.1 h⟩

/-- The state PARSE leaves for a report. -/
def ParseReport.apply (r : ParseReport) (s : State) : State :=
  State.setStatus { s with
    excCode := r.excCode.getD s.excCode
    resBc := r.resBc.getD s.resBc
    resCrc := r.resCrc.getD s.resCrc
    wb := s.wb.writeList 0 r.words
    wcnt := BitVec.ofNat 8 r.words.length } r.status

theorem recordReport_eq (r : ParseReport) (s : State) : recordReport r s = .next (r.apply s) := rfl

theorem execParse_next {s t : State} (h : execParse s = .next t) :
    (Config.fbSize < s.frameLen ∧ t = State.setStatus { s with wcnt := 0 } .invalidArgument) ∨
    (s.frameLen ≤ Config.fbSize ∧ ∃ raw, raw.length = s.frameLen ∧ s.frameIs raw ∧
      t = (parseFrame s.opSlave s.opFc raw).apply s) := by
  unfold execParse at h
  split at h
  · next hn => exact .inl ⟨hn, finish_eq_next_iff.1 h⟩
  · next hn =>
    obtain ⟨raw, h1, h2, h3⟩ := withFrame_next h
    rw [recordReport_eq, Host.Outcome.next.injEq] at h3
    exact .inr ⟨by omega, raw, h1, h2, h3.symm⟩

theorem length_payloadWords (raw : List Byte) (i k : Nat) : (payloadWords raw i k).length = k := by
  induction k generalizing i with
  | zero => rfl
  | succ k ih => simp [payloadWords, ih]

/-- Word `k` of a payload is made of the bytes `2k` and `2k + 1` after its start, high byte first (R86). -/
theorem getElem_payloadWords (raw : List Byte) (i n k : Nat) (h : k < (payloadWords raw i n).length) :
    (payloadWords raw i n)[k] = joinBytes (byteAt raw (i + 2 * k)) (byteAt raw (i + 2 * k + 1)) := by
  induction n generalizing i k with
  | zero => simp [payloadWords] at h
  | succ n ih =>
    cases k with
    | zero => simp [payloadWords]
    | succ k =>
      have := ih (i + 2) k (by simpa [payloadWords] using h)
      simp only [payloadWords, List.getElem_cons_succ, this]
      rw [show i + 2 * (k + 1) = i + 2 + 2 * k by omega]

/-- Everything the checks can report for a success response (R155–R157). -/
theorem parseSuccess_cases (raw : List Byte) :
    (raw.length < 5 + (byteAt raw 2).toNat ∧
      parseSuccess raw = { status := .frameTooShort, resBc := some (byteAt raw 2) }) ∨
    (5 + (byteAt raw 2).toNat < raw.length ∧
      parseSuccess raw = { status := .frameTooLong, resBc := some (byteAt raw 2) }) ∨
    (raw.length = 5 + (byteAt raw 2).toNat ∧ ∃ c, c = crc16 (raw.take (3 + (byteAt raw 2).toNat)) ∧
      ((trailerMatches c raw (3 + (byteAt raw 2).toNat) = false ∧
          parseSuccess raw = { status := .crcMismatch, resBc := some (byteAt raw 2), resCrc := some c }) ∨
        (trailerMatches c raw (3 + (byteAt raw 2).toNat) = true ∧ (byteAt raw 2).toNat % 2 = 1 ∧
          parseSuccess raw = { status := .oddByteCount, resBc := some (byteAt raw 2), resCrc := some c }) ∨
        (trailerMatches c raw (3 + (byteAt raw 2).toNat) = true ∧ (byteAt raw 2).toNat % 2 = 0 ∧
          parseSuccess raw =
            { status := .ok, resBc := some (byteAt raw 2), resCrc := some c,
              words := payloadWords raw 3 ((byteAt raw 2).toNat / 2) }))) := by
  simp only [parseSuccess]
  split
  · exact .inl ⟨by omega, rfl⟩
  · split
    · exact .inr (.inl ⟨by omega, rfl⟩)
    · refine .inr (.inr ⟨by omega, _, rfl, ?_⟩)
      split
      · next h => exact .inl ⟨by simpa using h, rfl⟩
      · next h =>
        split
        · next ho => exact .inr (.inl ⟨by simpa using h, ho, rfl⟩)
        · next ho => exact .inr (.inr ⟨by simpa using h, by omega, rfl⟩)

/-- Everything the checks can report for an exception response (R153). -/
theorem parseException_cases (raw : List Byte) :
    (raw.length ≠ 5 ∧ parseException raw = { status := .frameTooLong, excCode := some (byteAt raw 2) }) ∨
    (raw.length = 5 ∧ ∃ c, c = crc16 (raw.take 3) ∧
      ((trailerMatches c raw 3 = true ∧
          parseException raw = { status := .deviceException, excCode := some (byteAt raw 2), resCrc := some c }) ∨
        (trailerMatches c raw 3 = false ∧
          parseException raw = { status := .crcMismatch, excCode := some (byteAt raw 2), resCrc := some c }))) := by
  simp only [parseException]
  split
  · next h => exact .inl ⟨h, rfl⟩
  · next h =>
    refine .inr ⟨by omega, _, rfl, ?_⟩
    split
    · next hm => exact .inl ⟨hm, rfl⟩
    · next hm => exact .inr ⟨by simpa using hm, rfl⟩

/-- Everything the checks can report, in their order (R150, R215). -/
theorem parseFrame_cases (slave fc : Byte) (raw : List Byte) :
    (raw.length < 5 ∧ parseFrame slave fc raw = { status := .frameTooShort }) ∨
    (5 ≤ raw.length ∧ byteAt raw 0 ≠ slave ∧ parseFrame slave fc raw = { status := .slaveIdMismatch }) ∨
    (5 ≤ raw.length ∧ byteAt raw 0 = slave ∧ byteAt raw 1 = exceptionCodeOf fc ∧
      parseFrame slave fc raw = parseException raw) ∨
    (5 ≤ raw.length ∧ byteAt raw 0 = slave ∧ byteAt raw 1 ≠ exceptionCodeOf fc ∧ byteAt raw 1 ≠ fc ∧
      parseFrame slave fc raw = { status := .functionCodeMismatch }) ∨
    (5 ≤ raw.length ∧ byteAt raw 0 = slave ∧ byteAt raw 1 ≠ exceptionCodeOf fc ∧ byteAt raw 1 = fc ∧
      parseFrame slave fc raw = parseSuccess raw) := by
  unfold parseFrame
  split
  · next h => exact .inl ⟨h, rfl⟩
  · next h1 =>
    have h1 : 5 ≤ raw.length := by omega
    split
    · next h2 => exact .inr (.inl ⟨h1, h2, rfl⟩)
    · next h2 =>
      have h2 := not_not.1 h2
      split
      · next h3 => exact .inr (.inr (.inl ⟨h1, h2, h3, rfl⟩))
      · next h3 =>
        split
        · next h4 => exact .inr (.inr (.inr (.inl ⟨h1, h2, h3, h4, rfl⟩)))
        · next h4 => exact .inr (.inr (.inr (.inr ⟨h1, h2, h3, not_not.1 h4, rfl⟩)))

/-- A report's words fit in WB, and only OK has words (R34, R158). -/
theorem parseFrame_words (slave fc : Byte) (raw : List Byte) :
    (parseFrame slave fc raw).words.length ≤ Config.wbSize ∧
    ((parseFrame slave fc raw).status ≠ .ok → (parseFrame slave fc raw).words = []) := by
  obtain ⟨-, h⟩ | ⟨-, -, h⟩ | ⟨-, -, -, h⟩ | ⟨-, -, -, -, h⟩ | ⟨-, -, -, -, h⟩ := parseFrame_cases slave fc raw
  · simp [h]
  · simp [h]
  · obtain ⟨-, e⟩ | ⟨-, c, -, ⟨-, e⟩ | ⟨-, e⟩⟩ := parseException_cases raw <;> simp [h, e]
  · simp [h]
  · obtain ⟨-, e⟩ | ⟨-, e⟩ | ⟨-, c, -, ⟨-, e⟩ | ⟨-, -, e⟩ | ⟨-, -, e⟩⟩ := parseSuccess_cases raw
    · simp [h, e]
    · simp [h, e]
    · simp [h, e]
    · simp [h, e]
    · have := (byteAt raw 2).isLt
      simp only [h, e, length_payloadWords]
      exact ⟨by show _ ≤ 127; omega, fun hc => absurd rfl hc⟩

/-- The state DECODE leaves for a decoded value. -/
def Decoded.apply (v : Decoded) (s : State) : State :=
  State.setStatus { s with
    resVal := v.val
    resScale := v.scale
    resTlen := BitVec.ofNat 8 v.text.length
    tb := s.tb.writeList 0 v.text } .ok

theorem recordDecoded_eq (v : Decoded) (s : State) : recordDecoded v s = .next (v.apply s) := rfl

theorem execDecode_next {s t : State} (h : execDecode s = .next t) :
    (kindOf (defKind s.defReg) = none ∧ t = s.setStatus .unsupportedEncoding) ∨
    (∃ k st, kindOf (defKind s.defReg) = some k ∧ definitionFailure s.defReg s.wcnt k = some st ∧ t = s.setStatus st) ∨
    (∃ k words, kindOf (defKind s.defReg) = some k ∧ definitionFailure s.defReg s.wcnt k = none ∧
      words.length = (defWc s.defReg).toNat ∧ s.wordsAre words ∧ t = (decodeKind s.defReg words k).apply s) := by
  unfold execDecode at h
  split at h
  · next hk => exact .inl ⟨hk, finish_eq_next_iff.1 h⟩
  · next k hk =>
    split at h
    · next st hf => exact .inr (.inl ⟨k, st, hk, hf, finish_eq_next_iff.1 h⟩)
    · next hf =>
      obtain ⟨words, h1, h2, h3⟩ := withWords_next h
      rw [recordDecoded_eq, Host.Outcome.next.injEq] at h3
      exact .inr (.inr ⟨k, words, hk, hf, h1, h2, h3.symm⟩)

/-- What the definition checks have passed for when none fails (R181–R183). -/
theorem definitionFailure_none {d : Word} {wcnt : Byte} {k : Kind} (h : definitionFailure d wcnt k = none) :
    ¬ (k = .unsignedScaled ∧ divisorOf (defScale d) = none) ∧ defRsvd0 d = 0 ∧ defRsvd1 d = false ∧
    1 ≤ (defWc d).toNat ∧ (defWc d).toNat ≤ Config.maxRegisterCount ∧
    (defWc d).toNat = need (defWc d).toNat k ∧ (defWc d).toNat ≤ wcnt.toNat := by
  unfold definitionFailure at h
  split at h
  · simp at h
  · next h1 =>
    split at h
    · simp at h
    · next h2 =>
      split at h
      · simp at h
      · next h3 =>
        split at h
        · simp at h
        · next h4 =>
          split at h
          · simp at h
          · next h5 =>
            simp only [not_or, not_not, Bool.not_eq_true] at h2
            exact ⟨h1, h2.1, h2.2, by omega, by omega, not_not.1 h4, by omega⟩

theorem length_asciiText (words : List Word) : (asciiText words).length = 2 * words.length := by
  induction words with
  | nil => rfl
  | cons w ws ih => simp [asciiText, ih]; omega

theorem length_dec_bounds (x : Byte) : 1 ≤ (dec x).length ∧ (dec x).length ≤ 3 := by
  simp only [dec]
  split
  · simp
  · split <;> simp

theorem length_versionText_bounds (major minor patch : Byte) :
    6 ≤ (versionText major minor patch).length ∧ (versionText major minor patch).length ≤ 12 := by
  have h1 := length_dec_bounds major
  have h2 := length_dec_bounds minor
  have h3 := length_dec_bounds patch
  simp only [versionText, List.length_append, List.length_cons, List.length_nil]
  omega

theorem divisor_cases (scale : BitVec 2) : divisor scale = 1 ∨ divisor scale = 10 ∨ divisor scale = 100 := by
  revert scale; decide

/-- A decoding's text fits in TB and its divisor is a legal one (R35, R78). -/
theorem decodeKind_bounds {d : Word} {words : List Word} (k : Kind) (hw : words.length ≤ Config.maxRegisterCount) :
    (decodeKind d words k).text.length ≤ Config.tbSize ∧
    ((decodeKind d words k).scale = 1 ∨ (decodeKind d words k).scale = 10 ∨ (decodeKind d words k).scale = 100) := by
  cases k
  · exact ⟨by simp [decodeKind, unsignedScaled], divisor_cases _⟩
  · exact ⟨by simp [decodeKind, signedMagnitudeByte], .inl rfl⟩
  · exact ⟨by simp [decodeKind, wideUnsigned], .inl rfl⟩
  · refine ⟨?_, .inl rfl⟩
    have hw : words.length ≤ 125 := hw
    show (asciiText words).length ≤ 250
    rw [length_asciiText]
    omega
  · refine ⟨?_, .inl rfl⟩
    have := (length_versionText_bounds (loByte (wordAt words 0)) (hiByte (wordAt words 1)) (loByte (wordAt words 1))).2
    exact Nat.le_trans this (by decide)

/-- DECODE of a KIND that names no encoding (R181). -/
theorem execDecode_of_noKind {s : State} (hk : kindOf (defKind s.defReg) = none) :
    execDecode s = .next (s.setStatus .unsupportedEncoding) := by
  simp only [execDecode, hk, finish]

/-- DECODE whose checks fail reports the failure (R181–R183). -/
theorem execDecode_of_fails {s : State} {k : Kind} {st : Status} (hk : kindOf (defKind s.defReg) = some k)
    (hf : definitionFailure s.defReg s.wcnt k = some st) : execDecode s = .next (s.setStatus st) := by
  simp only [execDecode, hk, hf, finish]

/-- DECODE on words WB holds, its checks passed, records the decoding. -/
theorem execDecode_of_passes {s : State} {k : Kind} {words : List Word} (hk : kindOf (defKind s.defReg) = some k)
    (hf : definitionFailure s.defReg s.wcnt k = none) (hl : words.length = (defWc s.defReg).toNat)
    (hw : s.wordsAre words) : execDecode s = .next ((decodeKind s.defReg words k).apply s) := by
  simp only [execDecode, hk, hf]
  rw [← hl, withWords_of_wordsAre hw, recordDecoded_eq]

/-- PARSE on a frame FB holds records the report on it. -/
theorem execParse_of_holdsFrame {s : State} {raw : List Byte} (hl : raw.length ≤ Config.fbSize) (hf : s.holdsFrame raw) :
    execParse s = .next ((parseFrame s.opSlave s.opFc raw).apply s) := by
  obtain ⟨hn, hraw⟩ := hf
  have hlen : s.frameLen = raw.length := hn
  rw [execParse, if_neg (by omega), hlen, withFrame_of_frameIs hraw, recordReport_eq]

end Sys2Proof.Machine
end

