-- ==== Sys2Proof/Laws/PerInstr.lean ====
section
/-! SUPPORT. Facts about every command as syntax, one lemma per constructor: its code is read back as the command, whatever bytes
follow, and the row it is read by is its own (R71, R88). -/

namespace Sys2Proof.Laws.RoundTrip

/-- A well-formed command's bytes decode to the command, and what follows them is handed back. -/
def Statement (i : Instr) : Prop := i.wf = true ∧ ∀ rest, decode (encode i ++ rest) = .ok (i, rest)

theorem crcInit : Statement .crcInit := ⟨rfl, fun _ => rfl⟩
theorem crcUpdate : Statement .crcUpdate := ⟨rfl, fun _ => rfl⟩
theorem crcCompute : Statement .crcCompute := ⟨rfl, fun _ => rfl⟩
theorem crcAppend : Statement .crcAppend := ⟨rfl, fun _ => rfl⟩
theorem crcValidate : Statement .crcValidate := ⟨rfl, fun _ => rfl⟩
theorem buildRead : Statement .buildRead := ⟨rfl, fun _ => rfl⟩
theorem parse : Statement .parse := ⟨rfl, fun _ => rfl⟩
theorem decode : Statement .decode := ⟨rfl, fun _ => rfl⟩

end Sys2Proof.Laws.RoundTrip
end

