-- ==== Sys2Proof/Laws/Step.lean ====
section
/-! SUPPORT. What a step can do, said once: the three ways to a next state, and the ways of a host access. -/

namespace Sys2Proof.Machine

theorem step_of_access {s : State} {a : Access} {rest : List Input} (h : s.pending = .access a :: rest) :
    step s = hostAccess a { s with pending := rest } := by
  simp [step, runNextInput, h, takeInput]

theorem step_of_reset {s : State} {rest : List Input} (h : s.pending = .reset :: rest) :
    step s = .next (State.resetBlock { s with pending := rest }) := by
  simp [step, runNextInput, h, takeInput]

theorem step_of_idle {s : State} (h : s.pending = []) : step s = .next s := by
  simp [step, runNextInput, h]

/-- A step that answers a next state was idle, a reset, or a host access. -/
theorem step_cases {s t : State} (h : step s = .next t) :
    (s.pending = [] ∧ t = s) ∨
    (∃ rest, s.pending = .reset :: rest ∧ t = State.resetBlock { s with pending := rest }) ∨
    (∃ a rest, s.pending = .access a :: rest ∧ hostAccess a { s with pending := rest } = .next t) := by
  cases hp : s.pending with
  | nil => rw [step_of_idle hp] at h; exact .inl ⟨rfl, (Host.Outcome.next.inj h).symm⟩
  | cons e rest =>
    cases e with
    | reset => rw [step_of_reset hp] at h; exact .inr (.inl ⟨rest, rfl, (Host.Outcome.next.inj h).symm⟩)
    | access a => rw [step_of_access hp] at h; exact .inr (.inr ⟨a, rest, rfl, h⟩)

/-- A run of one more step goes on from that step's next state. -/
theorem run_succ_of_step (M : Host.Core) (k : Nat) {s t : M.State} (h : M.step s = .next t) :
    M.run (k + 1) s = M.run k t := by
  simp [Host.Core.run, h]

/-- The machine's runs in terms of `step`. -/
theorem core_run_succ {k : Nat} {s t : State} (h : step s = .next t) :
    Sys2Proof.core.run (k + 1) s = Sys2Proof.core.run k t :=
  run_succ_of_step Sys2Proof.core k h

theorem core_run_zero (s : State) : Sys2Proof.core.run 0 s = .next s := rfl

/-- A command code is a command, which runs, or none, which only sets STATUS. -/
theorem issue_cases (code : Byte) (s : State) :
    (∃ i, decodeCode code = some i ∧ issue code s = exec i s) ∨
    (decodeCode code = none ∧ issue code s = .next (s.setStatus .illegalCommand)) := by
  unfold issue decode
  cases h : decodeCode code with
  | some i => exact .inl ⟨i, rfl, by simp [h]⟩
  | none => exact .inr ⟨rfl, by simp [h, finish]⟩

theorem readElement_next {b : Buffer} {size i : Nat} {value : Option DWord} {s t : State}
    (h : readElement b size i value s = .next t) : i < size ∧ ∃ v, value = some v ∧ t = s.deliver v := by
  unfold readElement at h
  split at h
  · next hi =>
    cases value with
    | some v => exact ⟨hi, v, rfl, (Host.Outcome.next.inj h).symm⟩
    | none => simp [unwritten] at h
  · simp at h

/-- A host access that answers a next state was a read, a register write, a command, or a buffer write. -/
theorem hostAccess_cases {a : Access} {s t : State} (h : hostAccess a s = .next t) :
    (∃ v, t = s.deliver v) ∨
    (∃ r v, a = .wr r v ∧ r ≠ .cmd ∧ writeRefusal v r = none ∧ t = storeReg s v r) ∨
    (∃ v, a = .wr .cmd v ∧ writeRefusal v .cmd = none ∧ issue (v.setWidth 8) s = .next t) ∨
    (∃ i v, a = .wrb i v ∧ i < Config.fbSize ∧ t = { s with fb := s.fb.write i v }) ∨
    (∃ i v, a = .wrw i v ∧ i < Config.wbSize ∧ t = { s with wb := s.wb.write i v }) := by
  cases a with
  | rd r =>
    simp only [hostAccess, hostReadReg] at h
    split at h
    · next v hv => exact .inl ⟨v, (Host.Outcome.next.inj h).symm⟩
    · simp at h
  | wr r v =>
    simp only [hostAccess, hostWriteReg] at h
    split at h
    · simp at h
    · next hr =>
      split at h
      · next hc => subst hc; exact .inr (.inr (.inl ⟨v, rfl, hr, h⟩))
      · next hc => exact .inr (.inl ⟨r, v, rfl, hc, hr, (Host.Outcome.next.inj h).symm⟩)
  | rdb i => obtain ⟨-, v, -, rfl⟩ := readElement_next h; exact .inl ⟨v, rfl⟩
  | rdw i => obtain ⟨-, v, -, rfl⟩ := readElement_next h; exact .inl ⟨v, rfl⟩
  | rdt i => obtain ⟨-, v, -, rfl⟩ := readElement_next h; exact .inl ⟨v, rfl⟩
  | wrb i v =>
    simp only [hostAccess, hostWriteFb] at h
    split at h
    · next hi => exact .inr (.inr (.inr (.inl ⟨i, v, rfl, hi, (Host.Outcome.next.inj h).symm⟩)))
    · simp at h
  | wrw i v =>
    simp only [hostAccess, hostWriteWb] at h
    split at h
    · next hi => exact .inr (.inr (.inr (.inr ⟨i, v, rfl, hi, (Host.Outcome.next.inj h).symm⟩)))
    · simp at h
  | wrt i v => simp [hostAccess] at h
  | rdwByte i => simp [hostAccess] at h
  | wrwByte i v => simp [hostAccess] at h

end Sys2Proof.Machine
end

