-- ==== Sys2Proof/Tests/Slice0.lean ====
section
/-! SUPPORT. Tests and witnesses. Every expected value comes from the spec (the file or the vector is named), none from a run of
the model. A `witness_` theorem shows values that meet all hypotheses of the statement it names together, clause by clause. -/

namespace Sys2Proof.Tests

open Sys2Proof Sys2Proof.Machine Sys2Proof.Slice0

/-- The state a command or a step leads to, if it leads to one. -/
def after : Result → Option State
  | .next t => some t
  | .fault _ => none
  | .refused _ => none

/-- Reset, then FB holding a frame, OP_LEN its length, and slave 1, function 3 expected. -/
def frameState (raw : List Byte) : State :=
  { State.reset with
    fb := Memory.writeList [] 0 raw
    opLen := BitVec.ofNat 16 raw.length
    opSlave := 1
    opFc := 3 }

/-- Reset, then WB holding words, WCNT their number, and a definition. -/
def wordState (d : Word) (words : List Word) : State :=
  { State.reset with
    wb := Memory.writeList [] 0 words
    wcnt := BitVec.ofNat 8 words.length
    defReg := d }

/-- Reset, with these accesses still to come. -/
def hostState (accesses : List Access) : State := { State.reset with pending := accesses.map .access }

theorem frameState_holdsFrame {raw : List Byte} (h : raw.length ≤ 260) : (frameState raw).holdsFrame raw :=
  ⟨by simp [frameState]; omega, fun i hi => by simpa [frameState] using Memory.read_writeList_inside [] 0 i raw hi⟩

theorem wordState_wordsAre (d : Word) (words : List Word) : (wordState d words).wordsAre words :=
  fun i hi => by simpa [wordState] using Memory.read_writeList_inside [] 0 i words hi

theorem replicate_fits {n : Nat} {b : Byte} (h : n ≤ 260) : (List.replicate n b).length ≤ 260 := by
  rw [List.length_replicate]; exact h

/-! ### Well-formedness: one ill-formed access for each check (R22, R56, D35) -/

theorem test_read_of_cmd_is_ill_formed : (Access.rd .cmd).wf = false := by decide
theorem test_write_of_read_only_register_is_ill_formed : (Access.wr .status 0).wf = false := by decide
theorem test_write_wider_than_byte_register_is_ill_formed : (Access.wr .opData 0x100).wf = false := by decide
theorem test_write_wider_than_word_register_is_ill_formed : (Access.wr .opLen 0x10000).wf = false := by decide
theorem test_wcnt_128_is_ill_formed : (Access.wr .wcnt 128).wf = false := by decide
theorem test_fb_index_260_is_ill_formed : (Access.rdb 260).wf = false ∧ (Access.wrb 260 0).wf = false := by decide
theorem test_wb_index_127_is_ill_formed : (Access.rdw 127).wf = false ∧ (Access.wrw 127 0).wf = false := by decide
theorem test_tb_index_250_is_ill_formed : (Access.rdt 250).wf = false := by decide
theorem test_write_of_tb_is_ill_formed : (Access.wrt 0 0).wf = false := by decide
theorem test_byte_access_to_wb_is_ill_formed : (Access.rdwByte 0).wf = false ∧ (Access.wrwByte 0 0).wf = false := by
  decide

/-! ### Decoding: each code written out bit by bit (spec/opcode_table.json "encoding") -/

theorem test_decode_crcInit : decode [0b00000001] = .ok (.crcInit, []) := by rfl
theorem test_decode_crcUpdate : decode [0b00000010] = .ok (.crcUpdate, []) := by rfl
theorem test_decode_crcCompute : decode [0b00000011] = .ok (.crcCompute, []) := by rfl
theorem test_decode_crcAppend : decode [0b00000100] = .ok (.crcAppend, []) := by rfl
theorem test_decode_crcValidate : decode [0b00000101] = .ok (.crcValidate, []) := by rfl
theorem test_decode_buildRead : decode [0b00010000] = .ok (.buildRead, []) := by rfl
theorem test_decode_parse : decode [0b00100000] = .ok (.parse, []) := by rfl
theorem test_decode_decode : decode [0b00110000] = .ok (.decode, []) := by rfl

/-- R72: 0x00 is no command, and neither is a neighbour of a command's code. -/
theorem test_decode_rejects_other_codes : [0x00, 0x06, 0x11, 0x21, 0x31, 0xFF].all (fun c => decodeCode c == none) = true := by
  decide

/-- No byte falls under two rows of the opcode table. -/
theorem test_opcode_rows_are_disjoint :
    opcodeTable.Pairwise (fun r r' => r.pattern &&& (r.mask &&& r'.mask) ≠ r'.pattern &&& (r.mask &&& r'.mask)) := by
  decide

/-- The table's numbering: a command's bits 7 to 0 are its one byte. -/
theorem test_table_word : decodeTableWord 8 0x30 = some .decode ∧ decodeTableWord 8 0x31 = none := by decide

/-- A placed command runs as the first instruction after reset (K24: CRC_COMPUTE with OP_LEN = 0). -/
theorem test_placed_command_runs :
    (after (step (State.reset.withFetchWord 8 0x03))).map (fun t => (t.resCrc, t.status)) = some (0xFFFF, 0x00) := by
  decide

/-! ### Host accesses and reset -/

/-- R72: 0x0F is no command; STATUS takes 0x0C. -/
theorem test_illegal_command : (after (step (hostState [.wr .cmd 0x0F]))).map (·.status) = some 0x0C := by decide

/-- R79: DEF reads back as written, reserved bits too. -/
theorem test_def_reads_back :
    (after (step { hostState [.rd .defReg] with defReg := 0x80C0 })).map (·.returned) = some [0x80C0] := by decide

/-- R37: reading a byte nothing has written is a fault. -/
theorem test_unwritten_read_faults : step (hostState [.rdb 0]) = .fault (.unwrittenRead .fb 0) := by rfl

/-- R241: reset clears the buffers. -/
theorem test_reset_clears :
    (after (step { frameState [0x01] with pending := [.reset] })).map (fun t => (t.fb, t.opLen, t.acc)) =
      some ([], 0, 0xFFFF) := by decide

/-! ### The commands (95_test_vectors.md) -/

/-- K20. -/
theorem test_crcInit : (after (exec .crcInit { State.reset with acc := 0x1234 })).map (·.acc) = some 0xFFFF := by decide

/-- K21; RES_CRC is not written. -/
theorem test_crcUpdate :
    (after (exec .crcUpdate { State.reset with opData := 0x01 })).map (fun t => (t.acc, t.resCrc)) =
      some (0x807E, 0x0000) := by decide

/-- K12. -/
theorem test_crcUpdate_shifted_bit :
    (after (exec .crcUpdate { State.reset with acc := 0x0000, opData := 0x01 })).map (·.acc) = some 0xC0C1 := by decide

set_option maxRecDepth 3000 in
/-- K23; ACC stays. -/
theorem test_crcCompute :
    (after (exec .crcCompute (frameState [0x01, 0x03, 0x00, 0x00, 0x00, 0x01]))).map (fun t => (t.resCrc, t.acc)) =
      some (0x0A84, 0xFFFF) := by decide

/-- K25. -/
theorem test_crcCompute_too_long :
    (after (exec .crcCompute { State.reset with opLen := 261 })).map (fun t => (t.status, t.resCrc)) =
      some (0x01, 0x0000) := by decide

set_option maxRecDepth 3000 in
/-- K26; OP_LEN stays. -/
theorem test_crcAppend :
    (after (exec .crcAppend (frameState [0x01, 0x03, 0x00, 0x00, 0x00, 0x01]))).map
      (fun t => (t.fb.read 6, t.fb.read 7, t.opLen)) = some (some 0x84, some 0x0A, 6) := by decide

/-- K28. -/
theorem test_crcAppend_too_long :
    (after (exec .crcAppend { State.reset with opLen := 259 })).map (fun t => (t.status, t.fb)) = some (0x01, []) := by
  decide

set_option maxRecDepth 3000 in
/-- K31: the trailer's bytes swapped. -/
theorem test_crcValidate_swapped :
    (after (exec .crcValidate (frameState [0x01, 0x03, 0x00, 0x00, 0x00, 0x01, 0x0A, 0x84]))).map
      (fun t => (t.status, t.resValid, t.resCrc)) = some (0x00, false, 0x0A84) := by decide

/-- K32. -/
theorem test_crcValidate_empty_body :
    (after (exec .crcValidate (frameState [0xFF, 0xFF]))).map (fun t => (t.resValid, t.resCrc)) =
      some (true, 0xFFFF) := by decide

set_option maxRecDepth 3000 in
/-- B9: every field of the request differs from the others. -/
theorem test_buildRead :
    (after (exec .buildRead { State.reset with opSlave := 0x10, opAddr := 0x1234, opCount := 125 })).map
      (fun t => t.fb.map (·.2)) = some [0x10, 0x03, 0x12, 0x34, 0x00, 0x7D, 0xC2, 0x1C] := by decide

/-- B12. -/
theorem test_buildRead_count_126 :
    (after (exec .buildRead { State.reset with opSlave := 1, opCount := 126 })).map (fun t => (t.status, t.fb)) =
      some (0x01, []) := by decide

set_option maxRecDepth 3000 in
/-- P3. -/
theorem test_parse :
    (after (exec .parse (frameState [0x01, 0x03, 0x04, 0x00, 0x01, 0x86, 0xA0, 0xC9, 0xEB]))).map
      (fun t => (t.status, t.wcnt, t.wb, t.resBc)) = some (0x00, 2, [(0, 0x0001), (1, 0x86A0)], 4) := by decide

/-- P11: an exception frame of six bytes. -/
theorem test_parse_exception_too_long :
    (after (exec .parse (frameState [0x01, 0x83, 0x02, 0xC0, 0xF1, 0x00]))).map
      (fun t => (t.status, t.excCode, t.resCrc, t.resBc)) = some (0x04, 0x02, 0x0000, 0x00) := by decide

/-- D8: a signed-magnitude byte is not two's complement. -/
theorem test_decode_signed_magnitude :
    (after (exec .decode (wordState 0x0101 [0x00FF]))).map (·.resVal) = some 0xFFFFFF81 := by decide

/-- X4, D00's own vector: "V1.2.0". -/
theorem test_decode_version :
    (after (exec .decode (wordState 0x0204 [0x0301, 0x0200]))).map (fun t => (t.resVal, t.resTlen, t.tb.map (·.2))) =
      some (0x00010200, 6, [0x56, 0x31, 0x2E, 0x32, 0x2E, 0x30]) := by decide

/-! ### Witnesses: encoding, a step, host accesses -/

/-- Every command executes somewhere: the hypothesis of `CommandsWriteOnlyWhatTheyMay` and of the first half of
`StatusIsOneTabledForTheCommand`. -/
theorem witness_everyCommandExecutes :
    [Instr.crcInit, .crcUpdate, .crcCompute, .crcAppend, .crcValidate, .buildRead, .parse, .decode].all
      (fun i => (after (exec i State.reset)).isSome) = true := by decide

theorem witness_StepExecutesTheIssuedCommand :
    (hostState [.wr .cmd 0x05, .rd .status]).pending = .access (.wr .cmd 0x05) :: [.access (.rd .status)] ∧
    (0x05 : DWord).toNat ≤ 0xFF ∧ decode [(0x05 : DWord).setWidth 8] = .ok (.crcValidate, []) :=
  ⟨rfl, by decide, rfl⟩

theorem witness_PlacedCommandRunsNext : decodeTableWord 8 0x10 = some .buildRead := by decide

/-- Both ends of the codes that are no command. -/
theorem witness_IllegalCommandWritesOnlyStatus :
    [(0x00 : DWord), 0x06, 0x31, 0xFF].all (fun v =>
      (hostState [.wr .cmd v]).pending == .access (.wr .cmd v) :: [] && v.toNat ≤ 0xFF &&
      !([0x01, 0x02, 0x03, 0x04, 0x05, 0x10, 0x20, 0x30].contains v.toNat)) = true := by decide

/-- Every register a host may read; the value is the one the statement's list pairs it with. -/
theorem witness_RegisterReadsGiveTheRegister :
    [Reg.opData, .opSlave, .opFc, .opAddr, .opCount, .opLen, .defReg, .wcnt, .status, .acc, .resCrc, .resValid, .excCode,
      .resBc, .resVal, .resScale, .resTlen].all (fun r => (hostState [.rd r]).pending == .access (.rd r) :: []) = true := by
  decide

/-- Each clause, at the largest value of its register. -/
theorem witness_RegisterWritesStoreTheValue :
    (hostState [.wr .opData 0xFF]).pending = .access (.wr .opData ((0xFF : Byte).setWidth 32)) :: [] ∧
    (hostState [.wr .opSlave 0xFF]).pending = .access (.wr .opSlave ((0xFF : Byte).setWidth 32)) :: [] ∧
    (hostState [.wr .opFc 0xFF]).pending = .access (.wr .opFc ((0xFF : Byte).setWidth 32)) :: [] ∧
    (hostState [.wr .opAddr 0xFFFF]).pending = .access (.wr .opAddr ((0xFFFF : Word).setWidth 32)) :: [] ∧
    (hostState [.wr .opCount 0xFFFF]).pending = .access (.wr .opCount ((0xFFFF : Word).setWidth 32)) :: [] ∧
    (hostState [.wr .opLen 0xFFFF]).pending = .access (.wr .opLen ((0xFFFF : Word).setWidth 32)) :: [] ∧
    (hostState [.wr .defReg 0xFFFF]).pending = .access (.wr .defReg ((0xFFFF : Word).setWidth 32)) :: [] ∧
    (127 : Byte).toNat ≤ 127 ∧
    (hostState [.wr .wcnt 127]).pending = .access (.wr .wcnt ((127 : Byte).setWidth 32)) :: [] := by decide

/-- The last element of each buffer. -/
theorem witness_BufferWritesStoreOneElement :
    (hostState [.wrb 259 0xAB]).pending = .access (.wrb 259 0xAB) :: [] ∧ 259 < 260 ∧
    (hostState [.wrw 126 0xABCD]).pending = .access (.wrw 126 0xABCD) :: [] ∧ 126 < 127 := by decide

/-- The last element of each buffer, written and unwritten. -/
theorem witness_BufferReadsGiveTheElementOrFault :
    (let s := { hostState [.rdb 259] with fb := [(259, 0xAB)] }
     s.pending = .access (.rdb 259) :: [] ∧ s.fb.read 259 = some 0xAB ∧ 259 < 260) ∧
    ((hostState [.rdb 259]).pending = .access (.rdb 259) :: [] ∧ (hostState [.rdb 259]).fb.read 259 = none) ∧
    (let s := { hostState [.rdw 126] with wb := [(126, 0xABCD)] }
     s.pending = .access (.rdw 126) :: [] ∧ s.wb.read 126 = some 0xABCD ∧ 126 < 127) ∧
    ((hostState [.rdw 126]).pending = .access (.rdw 126) :: [] ∧ (hostState [.rdw 126]).wb.read 126 = none) ∧
    (let s := { hostState [.rdt 249] with tb := [(249, 0xAB)] }
     s.pending = .access (.rdt 249) :: [] ∧ s.tb.read 249 = some 0xAB ∧ 249 < 250) ∧
    ((hostState [.rdt 249]).pending = .access (.rdt 249) :: [] ∧ (hostState [.rdt 249]).tb.read 249 = none) := by
  decide

/-- Each kind of access the rule lists, at the first index or value outside its range. -/
theorem witness_ListedAccessesAreRefused :
    [Access.rdb 260, .wrb 260 0, .rdw 127, .wrw 127 0, .rdt 250, .wr .status 0, .wr .acc 0, .wr .resCrc 0, .wr .resValid 0,
      .wr .excCode 0, .wr .resBc 0, .wr .resVal 0, .wr .resScale 0, .wr .resTlen 0, .rd .cmd, .wrt 0 0, .wr .wcnt 128,
      .rdwByte 0, .wrwByte 0 0].all (fun a => (hostState [a]).pending == .access a :: []) = true ∧
    260 ≤ 260 ∧ 127 ≤ 127 ∧ 250 ≤ 250 ∧ 127 < (128 : DWord).toNat := by decide

theorem witness_StepRefusesExactlyIllFormedAccesses :
    (∃ why, step (hostState [.wr .opData 0x100]) = .refused why) ∧ (Access.wr .opData 0x100).wf = false := by
  exact ⟨⟨_, rfl⟩, by decide⟩

/-- A reset during a run, and definitions whose DECODE fails on the word count. -/
theorem witness_ResetGivesTheTabledValues :
    (∃ t, step { frameState [0x01] with pending := [.reset] } = .next t) ∧
    supportedDefinition 0x0100 ∧ wellFormedDefinition 0x0100 := by
  exact ⟨⟨_, rfl⟩, by unfold supportedDefinition defField; decide, by unfold wellFormedDefinition defField; decide⟩

/-! ### Witnesses: the checksum commands -/

theorem witness_StreamedBytesLeaveTheirChecksum :
    (hostState [.wr .cmd 0x01, .wr .opData 0x01, .wr .cmd 0x02, .rd .acc]).pending =
      streamInputs [0x01] ++ [.access (.rd .acc)] := by decide

/-- ACC changed by each of its two commands, and by a reset. -/
theorem witness_AccumulatorChangesOnlyByItsTwoCommands :
    (after (step { hostState [.wr .cmd 0x01] with acc := 0x1234 })).map (·.acc) = some 0xFFFF ∧
    (after (step { hostState [.wr .cmd 0x02] with opData := 0x01 })).map (·.acc) = some 0x807E ∧
    (after (step { State.reset with acc := 0x1234, pending := [.reset] })).map (·.acc) = some 0xFFFF := by
  decide

theorem witness_SingleByteErrorChangesTheChecksum : (0x01 : Byte) ≠ 0x81 := by decide

/-- Each clause: the first length too long, the longest and the shortest frame. -/
theorem witness_ComputeGivesTheChecksumOfTheBuffer :
    260 < ({ State.reset with opLen := 261 } : State).opLen.toNat ∧
    (frameState (List.replicate 260 0x5A)).holdsFrame (List.replicate 260 0x5A) ∧ (frameState []).holdsFrame [] :=
  ⟨by decide, frameState_holdsFrame (replicate_fits (by decide)), frameState_holdsFrame (by decide)⟩

theorem witness_AppendStoresTheChecksumLowByteFirst :
    258 < ({ State.reset with opLen := 259 } : State).opLen.toNat ∧
    (frameState (List.replicate 258 0)).holdsFrame (List.replicate 258 0) ∧ (frameState []).holdsFrame [] :=
  ⟨by decide, frameState_holdsFrame (replicate_fits (by decide)), frameState_holdsFrame (by decide)⟩

theorem witness_ValidateComparesTheTrailer :
    260 < ({ State.reset with opLen := 261 } : State).opLen.toNat ∧
    ({ State.reset with opLen := 1 } : State).opLen.toNat < 2 ∧
    (frameState (List.replicate 258 0 ++ [0x71, 0xDB])).holdsFrame (List.replicate 258 0 ++ [0x71, 0xDB]) ∧
    (frameState ([] ++ [0xFF, 0xFF])).holdsFrame ([] ++ [0xFF, 0xFF]) :=
  ⟨by decide, by decide, frameState_holdsFrame (by rw [List.length_append, List.length_replicate]; decide),
    frameState_holdsFrame (by decide)⟩

theorem witness_AppendedChecksumAlwaysValidates :
    ∃ (s : State) (raw : List Byte), raw.length = 258 ∧ s.holdsFrame raw ∧
      s.pending = .access (.wr .cmd 0x04) :: .access (.wr .opLen (BitVec.ofNat 32 (raw.length + 2))) ::
        .access (.wr .cmd 0x05) :: [] := by
  obtain ⟨raw, h⟩ : ∃ raw : List Byte, raw.length = 258 := ⟨_, List.length_replicate (a := 0)⟩
  exact ⟨{ frameState raw with
      pending := [.access (.wr .cmd 0x04), .access (.wr .opLen 260), .access (.wr .cmd 0x05)] }, raw, h,
    frameState_holdsFrame (by omega), by rw [h]; rfl⟩

/-! ### Witnesses: BUILD_READ -/

/-- The counts on both sides of both ends. -/
theorem witness_BuildReadStoresTheRequestFrame :
    ({ State.reset with opCount := 0 } : State).opCount.toNat = 0 ∧
    125 < ({ State.reset with opCount := 126 } : State).opCount.toNat ∧
    1 ≤ ({ State.reset with opCount := 1 } : State).opCount.toNat ∧
    ({ State.reset with opCount := 125 } : State).opCount.toNat ≤ 125 := by decide

theorem witness_BuiltRequestAlwaysValidates :
    let s := { hostState [.wr .cmd 0x10, .wr .opLen 8, .wr .cmd 0x05] with opCount := 125 }
    1 ≤ s.opCount.toNat ∧ s.opCount.toNat ≤ 125 ∧
    s.pending = .access (.wr .cmd 0x10) :: .access (.wr .opLen 8) :: .access (.wr .cmd 0x05) :: [] := by decide

/-! ### Witnesses: PARSE -/

theorem witness_ParseRejectsBadLengths :
    260 < ({ State.reset with opLen := 261 } : State).opLen.toNat ∧
    (frameState [0x01, 0x03, 0x02, 0x01]).holdsFrame [0x01, 0x03, 0x02, 0x01] :=
  ⟨by decide, frameState_holdsFrame (by decide)⟩

/-- The shortest and the longest frame of another slave. -/
theorem witness_ParseReportsAnotherSlaveFirst :
    (frameState (0x02 :: List.replicate 4 0)).holdsFrame (0x02 :: List.replicate 4 0) ∧
    (frameState (0x02 :: List.replicate 259 0)).holdsFrame (0x02 :: List.replicate 259 0) ∧
    (0x02 : Byte) ≠ (frameState []).opSlave :=
  ⟨frameState_holdsFrame (by decide),
    frameState_holdsFrame (by rw [List.length_cons, List.length_replicate]), by decide⟩

set_option maxRecDepth 3000 in
/-- P11; a valid exception frame P9 and one with a wrong trailer P10. -/
theorem witness_ParseExtractsTheDeviceException :
    (frameState [0x01, 0x83, 0x02, 0xC0, 0xF1, 0x00]).holdsFrame (0x01 :: (0x03 ||| 0x80) :: 0x02 :: [0xC0, 0xF1, 0x00]) ∧
    (frameState [0x01, 0x83, 0x02, 0xC0, 0xF1]).holdsFrame [0x01, 0x03 ||| 0x80, 0x02, 0xC0, 0xF1] ∧
    (crc16 [0x01, 0x83, 0x02]).toNat = (0xC0 : Byte).toNat + 256 * (0xF1 : Byte).toNat ∧
    (frameState [0x01, 0x83, 0x02, 0x00, 0x00]).holdsFrame [0x01, 0x03 ||| 0x80, 0x02, 0x00, 0x00] ∧
    (frameState []).opSlave = 0x01 ∧ (frameState []).opFc = 0x03 :=
  ⟨frameState_holdsFrame (by decide), frameState_holdsFrame (by decide), by decide,
    frameState_holdsFrame (by decide), rfl, rfl⟩

/-- P12, P13. -/
theorem witness_ParseRejectsAnotherFunctionCode :
    (frameState [0x01, 0x04, 0x02, 0x01, 0x05, 0x78, 0xA3]).holdsFrame (0x01 :: 0x04 :: [0x02, 0x01, 0x05, 0x78, 0xA3]) ∧
    (0x04 : Byte) ≠ 0x03 ||| 0x80 ∧ (0x04 : Byte) ≠ 0x03 :=
  ⟨frameState_holdsFrame (by decide), by decide, by decide⟩

/-- P14 and P15: one clause each, one byte off. -/
theorem witness_ParseChecksTheByteCount :
    (frameState [0x01, 0x03, 0x03, 0x01, 0x05, 0x99, 0xD6]).holdsFrame (0x01 :: 0x03 :: 0x03 :: [0x01, 0x05, 0x99, 0xD6]) ∧
    [0x01, 0x05, 0x99, 0xD6].length < (0x03 : Byte).toNat + 2 ∧
    (frameState [0x01, 0x03, 0x02, 0x01, 0x05, 0x79, 0xD7, 0x00]).holdsFrame
      (0x01 :: 0x03 :: 0x02 :: [0x01, 0x05, 0x79, 0xD7, 0x00]) ∧
    (0x02 : Byte).toNat + 2 < [0x01, 0x05, 0x79, 0xD7, 0x00].length ∧ (0x03 : Byte) ≠ 0x03 ||| 0x80 :=
  ⟨frameState_holdsFrame (by decide), by decide, frameState_holdsFrame (by decide), by decide, by decide⟩

set_option maxRecDepth 3000 in
/-- P16 (a wrong trailer), P18 (an odd count), P1 (a good frame), and the empty payload P2. -/
theorem witness_ParseUnpacksTheCheckedPayload :
    ((frameState [0x01, 0x03, 0x02, 0x01, 0x05, 0x79, 0xD8]).holdsFrame
        (0x01 :: 0x03 :: 0x02 :: ([0x01, 0x05] ++ [0x79, 0xD8])) ∧
      (crc16 [0x01, 0x03, 0x02, 0x01, 0x05]).toNat ≠ 0x79 + 256 * 0xD8) ∧
    ((frameState [0x01, 0x03, 0x03, 0x12, 0x34, 0x56, 0x73, 0x75]).holdsFrame
        (0x01 :: 0x03 :: 0x03 :: ([0x12, 0x34, 0x56] ++ [0x73, 0x75])) ∧
      (crc16 [0x01, 0x03, 0x03, 0x12, 0x34, 0x56]).toNat = 0x73 + 256 * 0x75 ∧ (0x03 : Byte).toNat % 2 = 1) ∧
    ((frameState [0x01, 0x03, 0x02, 0x01, 0x05, 0x79, 0xD7]).holdsFrame
        (0x01 :: 0x03 :: 0x02 :: ([0x01, 0x05] ++ [0x79, 0xD7])) ∧
      (crc16 [0x01, 0x03, 0x02, 0x01, 0x05]).toNat = 0x79 + 256 * 0xD7 ∧ (0x02 : Byte).toNat % 2 = 0) ∧
    ((frameState [0x01, 0x03, 0x00, 0x20, 0xF0]).holdsFrame (0x01 :: 0x03 :: 0x00 :: ([] ++ [0x20, 0xF0])) ∧
      (crc16 [0x01, 0x03, 0x00]).toNat = 0x20 + 256 * 0xF0) ∧
    (0x03 : Byte) ≠ 0x03 ||| 0x80 :=
  ⟨⟨frameState_holdsFrame (by decide), by decide⟩,
    ⟨frameState_holdsFrame (by decide), by decide, by decide⟩,
    ⟨frameState_holdsFrame (by decide), by decide, by decide⟩,
    ⟨frameState_holdsFrame (by decide), by decide⟩, by decide⟩

theorem witness_FailedParseSuppliesNoWords :
    (after (exec .parse (frameState [0x02, 0x03, 0x02, 0x01, 0x05, 0x3D, 0xD7]))).any (·.status ≠ 0x00) = true ∧
    supportedDefinition 0x7D03 ∧ wellFormedDefinition 0x7D03 := by
  exact ⟨by decide, by unfold supportedDefinition defField; decide,
    by unfold wellFormedDefinition defField; decide⟩

set_option maxRecDepth 3000 in
theorem witness_ByteCountIsTwiceTheWordCount :
    (after (exec .parse (frameState [0x01, 0x03, 0x02, 0x01, 0x05, 0x79, 0xD7]))).map (·.status) = some 0x00 := by
  decide

theorem length_responseFrame (slave fc : Byte) (words : List Word) :
    (responseFrame slave fc words).length = 5 + 2 * words.length := by
  simp [responseFrame, sentLowFirst]
  omega

/-- No words, and as many as WB holds. -/
theorem witness_ParsedResponseGivesBackTheWords :
    (∃ words : List Word, words.length = 127 ∧ (frameState (responseFrame 1 3 words)).holdsFrame (responseFrame 1 3 words)) ∧
    (frameState (responseFrame 1 3 [])).holdsFrame (responseFrame 1 3 []) ∧
    (frameState []).opSlave = 1 ∧ (frameState []).opFc = 3 ∧ (3 : Byte) ≠ 3 ||| 0x80 := by
  refine ⟨⟨List.replicate 127 0xABCD, List.length_replicate, ?_⟩, ?_, rfl, rfl, by decide⟩
  all_goals
    apply frameState_holdsFrame
    rw [length_responseFrame]
  · rw [List.length_replicate]; decide
  · decide

set_option maxRecDepth 3000 in
/-- P1 ends with OK, P9 with DeviceException. -/
theorem witness_ParseAcceptsOnlyGenuineFrames :
    (after (exec .parse (frameState [0x01, 0x03, 0x02, 0x01, 0x05, 0x79, 0xD7]))).map (·.status) = some 0x00 ∧
    (after (exec .parse (frameState [0x01, 0x83, 0x02, 0xC0, 0xF1]))).map (·.status) = some 0x08 := by
  decide

/-! ### Witnesses: DECODE -/

/-- Every field at its largest value. -/
theorem witness_DefinitionFieldsRoundTrip :
    (0xFFFF : Word).toNat = true.toNat * 2 ^ 15 + (127 : BitVec 7).toNat * 2 ^ 8 + (3 : BitVec 2).toNat * 2 ^ 6 +
      (3 : BitVec 2).toNat * 2 ^ 4 + true.toNat * 2 ^ 3 + (7 : BitVec 3).toNat := by decide

/-- Both unsupported forms; a reserved bit, the word counts 0 and 126, and a count the kind does not take; too few words. -/
theorem witness_DecodeReportsTheFirstFailure :
    ¬ supportedDefinition 0x0405 ∧ ¬ supportedDefinition 0x0130 ∧
    (supportedDefinition 0x8100 ∧ ¬ wellFormedDefinition 0x8100) ∧ (supportedDefinition 0x0140 ∧ ¬ wellFormedDefinition 0x0140) ∧
    (supportedDefinition 0x0003 ∧ ¬ wellFormedDefinition 0x0003) ∧ (supportedDefinition 0x7E03 ∧ ¬ wellFormedDefinition 0x7E03) ∧
    (supportedDefinition 0x0102 ∧ ¬ wellFormedDefinition 0x0102) ∧
    (supportedDefinition 0x0202 ∧ wellFormedDefinition 0x0202 ∧
      (wordState 0x0202 [0x0001]).wcnt.toNat < defField (wordState 0x0202 [0x0001]).defReg 8 7) := by
  refine ⟨?_, ?_, ⟨?_, ?_⟩, ⟨?_, ?_⟩, ⟨?_, ?_⟩, ⟨?_, ?_⟩, ⟨?_, ?_⟩, ?_, ?_, ?_⟩ <;>
    (try unfold supportedDefinition) <;> (try unfold wellFormedDefinition) <;> unfold defField <;> decide

/-- Each of the three divisors. -/
theorem witness_DecodeUnsignedScaled :
    [(0x0100, 0), (0x0110, 1), (0x0120, 2)].all (fun p => defField p.1 0 3 == 0 && defField p.1 4 2 == p.2) = true ∧
    wellFormedDefinition 0x0100 ∧ wellFormedDefinition 0x0110 ∧ wellFormedDefinition 0x0120 ∧
    1 ≤ (wordState 0x0120 [0xFFFF]).wcnt.toNat ∧ (wordState 0x0120 [0xFFFF]).wordsAre [0xFFFF] :=
  ⟨by decide, by unfold wellFormedDefinition defField; decide, by unfold wellFormedDefinition defField; decide,
    by unfold wellFormedDefinition defField; decide, by decide, wordState_wordsAre _ _⟩

/-- Either byte, the sign set. -/
theorem witness_DecodeSignedMagnitudeByte :
    (defField 0x0109 0 3 = 1 ∧ defField 0x0109 3 1 = 1 ∧ wellFormedDefinition 0x0109 ∧
      (wordState 0x0109 [0xFF00]).wordsAre [0xFF00] ∧ 1 ≤ (wordState 0x0109 [0xFF00]).wcnt.toNat) ∧
    (defField 0x0101 0 3 = 1 ∧ defField 0x0101 3 1 = 0 ∧ wellFormedDefinition 0x0101 ∧
      (wordState 0x0101 [0x0080]).wordsAre [0x0080] ∧ 1 ≤ (wordState 0x0101 [0x0080]).wcnt.toNat) :=
  ⟨⟨by decide, by decide, by unfold wellFormedDefinition defField; decide, wordState_wordsAre _ _, by decide⟩,
    ⟨by decide, by decide, by unfold wellFormedDefinition defField; decide, wordState_wordsAre _ _, by decide⟩⟩

theorem witness_DecodeWideUnsigned :
    defField 0x0202 0 3 = 2 ∧ wellFormedDefinition 0x0202 ∧ 2 ≤ (wordState 0x0202 [0xFFFF, 0xFFFF]).wcnt.toNat ∧
    (wordState 0x0202 [0xFFFF, 0xFFFF]).wordsAre [0xFFFF, 0xFFFF] :=
  ⟨by decide, by unfold wellFormedDefinition defField; decide, by decide, wordState_wordsAre _ _⟩

/-- One word, and 125, the most a definition names. -/
theorem witness_DecodePackedAscii :
    (defField 0x0103 0 3 = 3 ∧ wellFormedDefinition 0x0103 ∧ ([0x524E] : List Word).length = defField 0x0103 8 7 ∧
      (wordState 0x0103 [0x524E]).wordsAre [0x524E]) ∧
    (defField 0x7D03 0 3 = 3 ∧ wellFormedDefinition 0x7D03 ∧
      ∃ words : List Word, words.length = defField 0x7D03 8 7 ∧ words.length ≤ (wordState 0x7D03 words).wcnt.toNat ∧
        (wordState 0x7D03 words).wordsAre words) := by
  refine ⟨⟨by decide, by unfold wellFormedDefinition defField; decide, by decide, wordState_wordsAre _ _⟩,
    ⟨by decide, by unfold wellFormedDefinition defField; decide, ?_⟩⟩
  obtain ⟨words, h⟩ : ∃ words : List Word, words.length = 125 := ⟨_, List.length_replicate (a := 0x4142)⟩
  exact ⟨words, h, by simp [wordState, h], wordState_wordsAre _ _⟩

/-- "V255.255.255", the longest text. -/
theorem witness_DecodePackedVersion :
    defField 0x0204 0 3 = 4 ∧ wellFormedDefinition 0x0204 ∧ 2 ≤ (wordState 0x0204 [0x00FF, 0xFFFF]).wcnt.toNat ∧
    (wordState 0x0204 [0x00FF, 0xFFFF]).wordsAre [0x00FF, 0xFFFF] :=
  ⟨by decide, by unfold wellFormedDefinition defField; decide, by decide, wordState_wordsAre _ _⟩

theorem witness_VersionTextDeterminesTheComponents : versionText 1 2 0 = versionText 1 2 0 := by decide

theorem witness_FailedDecodeWritesOnlyStatus :
    (after (exec .decode (wordState 0x0405 [0x0001]))).map (·.status) = some 0x0A := by decide

/-- WB beyond WC holds something else. -/
theorem witness_DecodeReadsOnlyTheDefinedWords :
    (∀ k, k < defField 0x0110 8 7 → Memory.read (w := 16) [(0, 0x0105), (1, 0xFFFF)] k = (wordState 0x0110 [0x0105]).wb.read k) ∧
    (after (exec .decode (wordState 0x0110 [0x0105]))).map (·.status) = some 0x00 := by decide

/-! ### Witnesses: the whole machine -/

/-- A text of one byte, and the host about to read it. -/
def textState : State := { hostState [.rdt 0] with resTlen := 1, tb := [(0, 0x56)] }

theorem textState_inv : textState.Inv where
  fbWf := rfl
  fbInBounds := rfl
  wbWf := rfl
  wbInBounds := rfl
  tbWf := rfl
  tbInBounds := rfl
  wcntRange := by decide
  scaleLegal := .inl rfl
  tlenRange := by decide
  textWritten := fun i h => by
    have : i = 0 := by simpa [textState, hostState] using h
    subst this
    exact ⟨0x56, rfl⟩
  statusLegal := by decide

/-- A state with a text meets the invariant, and takes a step. -/
theorem witness_EveryStepKeepsTheInvariant : ∃ s t : State, s.Inv ∧ step s = .next t ∧ t.pending = [] :=
  ⟨textState, _, textState_inv, rfl, rfl⟩

/-- Two states that agree on what PARSE reads, and differ elsewhere. -/
theorem witness_CommandsDependOnlyOnWhatTheyRead :
    ∃ s s' : State, s ≠ s' ∧ sameReads .parse s s' ∧ (after (exec .parse s)).isSome = true :=
  ⟨frameState [0x01, 0x83, 0x02, 0xC0, 0xF1], { frameState [0x01, 0x83, 0x02, 0xC0, 0xF1] with acc := 0, wcnt := 3 },
    by decide, ⟨rfl, rfl, rfl, fun _ _ => rfl⟩, by decide⟩

/-- The second half speaks of states no run reaches: STATUS = 0x02 stays over an idle step. -/
theorem witness_StatusIsOneTabledForTheCommand :
    (after (step { State.reset with status := 0x02 })).map (·.status) = some 0x02 := by decide

/-- The fault itself, at the second byte of a frame of two. -/
theorem witness_CommandsFaultExactlyOnUnwrittenElements :
    exec .crcCompute { State.reset with opLen := 2, fb := [(0, 0x01)] } = .fault (.unwrittenRead .fb 1) := by rfl

theorem witness_DecodedTextIsReadable :
    textState.Inv ∧ 0 < textState.resTlen.toNat ∧ textState.pending = .access (.rdt 0) :: [] :=
  ⟨textState_inv, by decide, rfl⟩

/-- A command on a written frame, with the accesses that follow it. -/
theorem witness_StepCompletesOnWrittenOperands :
    let s := { frameState [0x01] with pending := [.access (.wr .cmd 0x03)] }
    s.pending = .access (.wr .cmd 0x03) :: [] ∧ (Access.wr .cmd 0x03).wf = true ∧
    (Access.wr .cmd 0x03).readsElement = none ∧ readRangeOf .crcCompute s = some (.fb, 1) ∧
    s.isWritten .fb 0 = true := by decide

end Sys2Proof.Tests
end

section
/-! ### Issuing a command: from a write of CMD to `exec` (R70) -/

namespace Sys2Proof.Machine

/-- CMD has 8 bits (R22), so a host can write every value up to 0xFF (D35). -/
theorem writeRefusal_cmd_of_fits {v : DWord} (h : v.toNat ≤ 0xFF) : writeRefusal v .cmd = none := by
  have hlt : v.toNat < 2 ^ 8 := by omega
  simp only [writeRefusal, widthRefusal, if_pos hlt]

/-- A write of CMD that fits is an issue of the written code, on the state as it is (R57, R70). -/
theorem hostAccess_writeCmd {v : DWord} (h : v.toNat ≤ 0xFF) (s : State) :
    hostAccess (.wr .cmd v) s = issue (v.setWidth 8) s := by
  simp only [hostAccess, hostWriteReg, writeRefusal_cmd_of_fits h, if_true]

/-- A step whose next input is a write of CMD takes that input and issues the written code (R21, R70). -/
theorem step_of_writeCmd {s : State} {v : DWord} {rest : List Input} (hp : s.pending = .access (.wr .cmd v) :: rest)
    (hv : v.toNat ≤ 0xFF) : step s = issue (v.setWidth 8) { s with pending := rest } := by
  rw [step_of_access hp, hostAccess_writeCmd hv]

/-- The code of a command, issued, executes that command (R70). -/
theorem issue_of_decode {code : Byte} {i : Instr} {rest : List Byte} (h : decode [code] = .ok (i, rest)) (s : State) :
    issue code s = exec i s := by
  simp only [issue, h]

/-- Settles O3: the step issues the written code, and issuing a command's code executes the command. -/
theorem stepExecutesTheIssuedCommand : Obligations.StepExecutesTheIssuedCommand := by
  intro s v i rest hpending hfits hdecode
  rw [step_of_writeCmd hpending hfits, issue_of_decode hdecode]

end Sys2Proof.Machine
end

section
/-! ### Host accesses: what a read gives, what a write stores, and how a command is placed (R22, R37, R56, R57) -/

namespace Sys2Proof.Machine

/-- A value has a width's bits exactly when it passes the width check (D35). -/
theorem widthRefusal_eq_none_iff (r : Reg) (v : DWord) (width : Nat) :
    widthRefusal r v width = none ↔ v.toNat < 2 ^ width := by
  unfold widthRefusal
  split <;> simp [*]

/-- The machine refuses exactly the register writes that are ill formed (R22, R26, R56, D35). -/
theorem writeRefusal_eq_none_iff (v : DWord) (r : Reg) : writeRefusal v r = none ↔ (Access.wr r v).wf = true := by
  cases r <;> simp [writeRefusal, widthRefusal_eq_none_iff, Access.wf, Reg.writeLimit, Nat.lt_succ_iff]

/-- A value that was zero-extended to 32 bits for a register write is stored as it was. -/
theorem setWidth_of_zeroExtended {w : Nat} (x : BitVec w) (h : w ≤ 32) : (x.setWidth 32).setWidth w = x := by
  rw [BitVec.setWidth_setWidth_of_le x h, BitVec.setWidth_eq]

/-- Settles O4: the placed input is a write of CMD with the byte the bits were decoded from. -/
theorem placedCommandRunsNext : Obligations.PlacedCommandRunsNext := by
  intro s nbits w i hdecode
  have hbyte : ∃ rest, decode [tableByte nbits w] = .ok (i, rest) := by
    unfold decodeTableWord at hdecode
    split at hdecode
    · next j rest hd => exact ⟨rest, Option.some.inj hdecode ▸ hd⟩
    · simp at hdecode
  obtain ⟨rest, hbyte⟩ := hbyte
  have hfits : ((tableByte nbits w).setWidth 32).toNat ≤ 0xFF := by
    rw [BitVec.toNat_setWidth]
    have := (tableByte nbits w).isLt
    omega
  rw [step_of_writeCmd (s := s.withFetchWord nbits w) rfl hfits, setWidth_of_zeroExtended _ (by decide),
    issue_of_decode hbyte]
  rfl

section RegisterRead

variable {s : State} {rest : List Input}

/-- A step that reads a register hands its value over and takes the input (R57). -/
theorem step_of_readReg {r : Reg} {v : DWord} (hp : s.pending = .access (.rd r) :: rest) (hv : readReg s r = some v) :
    step s = .next { s with pending := rest, returned := s.returned ++ [v] } := by
  have hv' : readReg { s with pending := rest } r = some v := hv
  rw [step_of_access hp]
  simp only [hostAccess, hostReadReg, hv', State.deliver]

/-- The registers a host may read, each with its value (R22). -/
def State.readable (s : State) : List (Reg × Nat) :=
  [(.opData, s.opData.toNat), (.opSlave, s.opSlave.toNat), (.opFc, s.opFc.toNat), (.opAddr, s.opAddr.toNat),
    (.opCount, s.opCount.toNat), (.opLen, s.opLen.toNat), (.defReg, s.defReg.toNat), (.wcnt, s.wcnt.toNat),
    (.status, s.status.toNat), (.acc, s.acc.toNat), (.resCrc, s.resCrc.toNat), (.resValid, s.resValid.toNat),
    (.excCode, s.excCode.toNat), (.resBc, s.resBc.toNat), (.resVal, s.resVal.toNat), (.resScale, s.resScale.toNat),
    (.resTlen, s.resTlen.toNat)]

/-- A read of any of them gives its value, zero-extended (R57). -/
theorem readReg_of_mem_readable {r : Reg} {value : Nat} (h : (r, value) ∈ s.readable) :
    readReg s r = some (BitVec.ofNat 32 value) := by
  have hbit : (if s.resValid then 1#32 else 0#32) = BitVec.ofNat 32 s.resValid.toNat := by cases s.resValid <;> rfl
  have hall : ∀ p ∈ s.readable, readReg s p.1 = some (BitVec.ofNat 32 p.2) := by
    simp [State.readable, readReg, hbit]
  exact hall (r, value) h

end RegisterRead

/-- Settles O6: the list of the statement is `State.readable`. -/
theorem registerReadsGiveTheRegister : Obligations.RegisterReadsGiveTheRegister :=
  fun _ _ _ _ hmem hp => step_of_readReg hp (readReg_of_mem_readable hmem)

section RegisterWrite

variable {s : State} {rest : List Input} {r : Reg}

/-- A step that writes a register other than CMD stores a well-formed value in it and takes the input (R57). -/
theorem step_of_writeReg {v : DWord} (hp : s.pending = .access (.wr r v) :: rest) (hr : r ≠ .cmd)
    (hwf : (Access.wr r v).wf = true) : step s = .next (storeReg { s with pending := rest } v r) := by
  rw [step_of_access hp]
  simp only [hostAccess, hostWriteReg, (writeRefusal_eq_none_iff v r).2 hwf, if_neg hr]

/-- Every byte can be written to a register of 8 bits (R22). -/
theorem step_of_writeByte {b : Byte} (hlimit : r.writeLimit = some 0xFF) (hr : r ≠ .cmd)
    (hp : s.pending = .access (.wr r (b.setWidth 32)) :: rest) :
    step s = .next (storeReg { s with pending := rest } (b.setWidth 32) r) := by
  refine step_of_writeReg hp hr ?_
  have := b.isLt
  simp only [Access.wf, hlimit, Option.any_some, BitVec.toNat_setWidth, decide_eq_true_eq]
  omega

/-- Every word can be written to a register of 16 bits (R22). -/
theorem step_of_writeWord {w : Word} (hlimit : r.writeLimit = some 0xFFFF) (hr : r ≠ .cmd)
    (hp : s.pending = .access (.wr r (w.setWidth 32)) :: rest) :
    step s = .next (storeReg { s with pending := rest } (w.setWidth 32) r) := by
  refine step_of_writeReg hp hr ?_
  have := w.isLt
  simp only [Access.wf, hlimit, Option.any_some, BitVec.toNat_setWidth, decide_eq_true_eq]
  omega

end RegisterWrite

/-- Settles O7: the write is well formed, and what is stored is the value before its zero extension. -/
theorem registerWritesStoreTheValue : Obligations.RegisterWritesStoreTheValue := by
  intro s rest
  have hbyte (b : Byte) : (b.setWidth 32).setWidth 8 = b := setWidth_of_zeroExtended b (by decide)
  have hword (w : Word) : (w.setWidth 32).setWidth 16 = w := setWidth_of_zeroExtended w (by decide)
  refine ⟨fun b hp => ?_, fun b hp => ?_, fun b hp => ?_, fun w hp => ?_, fun w hp => ?_, fun w hp => ?_,
    fun w hp => ?_, fun b hb hp => ?_⟩
  · rw [step_of_writeByte rfl (by decide) hp, storeReg, hbyte]
  · rw [step_of_writeByte rfl (by decide) hp, storeReg, hbyte]
  · rw [step_of_writeByte rfl (by decide) hp, storeReg, hbyte]
  · rw [step_of_writeWord rfl (by decide) hp, storeReg, hword]
  · rw [step_of_writeWord rfl (by decide) hp, storeReg, hword]
  · rw [step_of_writeWord rfl (by decide) hp, storeReg, hword]
  · rw [step_of_writeWord rfl (by decide) hp, storeReg, hword]
  · have hwf : (Access.wr .wcnt (b.setWidth 32)).wf = true := by
      simp only [Access.wf, Reg.writeLimit, Option.any_some, BitVec.toNat_setWidth, decide_eq_true_eq]
      exact Nat.le_trans (Nat.mod_le _ _) hb
    rw [step_of_writeReg hp (by decide) hwf, storeReg, hbyte]

section BufferRead

/-- The number of elements of a buffer (R33, R34, R35). -/
def Buffer.size : Buffer → Nat
  | .fb => Config.fbSize
  | .wb => Config.wbSize
  | .tb => Config.tbSize

/-- The host's read of a buffer element (R51, R52, R53). -/
def Buffer.readAccess : Buffer → Nat → Access
  | .fb, i => .rdb i
  | .wb, i => .rdw i
  | .tb, i => .rdt i

/-- What a buffer element holds, zero-extended to 32 bits; `none` if nothing has written it (R36, R57). -/
def State.element (s : State) : Buffer → Nat → Option DWord
  | .fb, i => (s.fb.read i).map (·.setWidth 32)
  | .wb, i => (s.wb.read i).map (·.setWidth 32)
  | .tb, i => (s.tb.read i).map (·.setWidth 32)

variable {s : State} {b : Buffer} {i : Nat} {rest : List Input}

/-- The reads of the three buffers differ in the buffer and its size only. -/
theorem hostAccess_readAccess (b : Buffer) (i : Nat) (s : State) :
    hostAccess (b.readAccess i) s = readElement b b.size i (s.element b i) s := by
  cases b <;> rfl

/-- A step that reads a written element hands its value over and takes the input (R57). -/
theorem step_of_readElement_some {v : DWord} (hi : i < b.size) (hp : s.pending = .access (b.readAccess i) :: rest)
    (hv : s.element b i = some v) : step s = .next { s with pending := rest, returned := s.returned ++ [v] } := by
  have hv' : State.element { s with pending := rest } b i = some v := by cases b <;> exact hv
  rw [step_of_access hp, hostAccess_readAccess, hv', readElement, if_pos hi, State.deliver]

/-- A step that reads an element nothing has written is the fault of it (R37). -/
theorem step_of_readElement_none (hi : i < b.size) (hp : s.pending = .access (b.readAccess i) :: rest)
    (hv : s.element b i = none) : step s = .fault (.unwrittenRead b i) := by
  have hv' : State.element { s with pending := rest } b i = none := by cases b <;> exact hv
  rw [step_of_access hp, hostAccess_readAccess, hv', readElement, if_pos hi, unwritten]

end BufferRead

/-- Settles O9, for each buffer its written and its unwritten elements. -/
theorem bufferReadsGiveTheElementOrFault : Obligations.BufferReadsGiveTheElementOrFault := by
  intro s rest i
  refine ⟨fun v hi hp hr => ?_, fun hi hp hr => ?_, fun v hi hp hr => ?_, fun hi hp hr => ?_, fun v hi hp hr => ?_,
    fun hi hp hr => ?_⟩
  · exact step_of_readElement_some (b := .fb) hi hp (by simp [State.element, hr])
  · exact step_of_readElement_none (b := .fb) hi hp (by simp [State.element, hr])
  · exact step_of_readElement_some (b := .wb) hi hp (by simp [State.element, hr])
  · exact step_of_readElement_none (b := .wb) hi hp (by simp [State.element, hr])
  · exact step_of_readElement_some (b := .tb) hi hp (by simp [State.element, hr])
  · exact step_of_readElement_none (b := .tb) hi hp (by simp [State.element, hr])

/-- Settles O53: the invariant has every byte of the text written, and the text lies in TB. -/
theorem decodedTextIsReadable : Obligations.DecodedTextIsReadable := by
  intro s i rest h hi hp
  obtain ⟨b, hb⟩ := h.textWritten i hi
  have hin : i < Config.tbSize := Nat.lt_of_lt_of_le hi h.tlenRange
  exact ⟨b, hb, step_of_readElement_some (b := .tb) hin hp (by simp [State.element, hb])⟩

end Sys2Proof.Machine
end

section
/-! ### The invariant: reset meets it, every update of the state keeps it, so every step does (R22, R33–R35, R241) -/

namespace Sys2Proof.Machine

/-- The part of a state that `State.Inv` speaks of: the buffers, WCNT, RES_SCALE, RES_TLEN and STATUS. -/
def State.guarded (s : State) : Memory 8 × Memory 16 × Memory 8 × Byte × Byte × Byte × Byte :=
  (s.fb, s.wb, s.tb, s.wcnt, s.resScale, s.resTlen, s.status)

/-- An update outside that part keeps the invariant. -/
theorem State.Inv.of_guarded_eq {s t : State} (h : s.Inv) (e : t.guarded = s.guarded) : t.Inv := by
  simp only [State.guarded, Prod.mk.injEq] at e
  obtain ⟨hfb, hwb, htb, hwcnt, hscale, htlen, hstatus⟩ := e
  exact {
    fbWf := hfb ▸ h.fbWf
    fbInBounds := hfb ▸ h.fbInBounds
    wbWf := hwb ▸ h.wbWf
    wbInBounds := hwb ▸ h.wbInBounds
    tbWf := htb ▸ h.tbWf
    tbInBounds := htb ▸ h.tbInBounds
    wcntRange := hwcnt ▸ h.wcntRange
    scaleLegal := hscale ▸ h.scaleLegal
    tlenRange := htlen ▸ h.tlenRange
    textWritten := by rw [htlen, htb]; exact h.textWritten
    statusLegal := hstatus ▸ h.statusLegal }

/-- Every outcome's code is one the block reports (R80, R214). -/
theorem statusProduced_code (st : Status) : statusProduced st.code = true := by cases st <;> rfl

theorem State.Inv.setStatus {s : State} (h : s.Inv) (st : Status) : (s.setStatus st).Inv :=
  { h with statusLegal := statusProduced_code st }

/-- Writes inside FB keep the invariant (R33, R50). -/
theorem State.Inv.writeFb {s : State} (h : s.Inv) {start : Nat} {bytes : List Byte}
    (hfit : start + bytes.length ≤ Config.fbSize) : State.Inv { s with fb := s.fb.writeList start bytes } :=
  { h with
    fbWf := Memory.wf_writeList start bytes h.fbWf
    fbInBounds := Memory.inBounds_writeList bytes hfit h.fbInBounds }

/-- Writes inside WB keep the invariant (R34, R50). -/
theorem State.Inv.writeWb {s : State} (h : s.Inv) {start : Nat} {words : List Word}
    (hfit : start + words.length ≤ Config.wbSize) : State.Inv { s with wb := s.wb.writeList start words } :=
  { h with
    wbWf := Memory.wf_writeList start words h.wbWf
    wbInBounds := Memory.inBounds_writeList words hfit h.wbInBounds }

/-- A WCNT of at most 127 keeps the invariant (R26). -/
theorem State.Inv.setWcnt {s : State} (h : s.Inv) {v : Byte} (hv : v.toNat ≤ Config.wcntMax) :
    State.Inv { s with wcnt := v } :=
  { h with wcntRange := hv }

/-- What PARSE records keeps the invariant: a report's words fit in WB, and WCNT is their number (R34, R157, R158). -/
theorem State.Inv.applyReport {s : State} (h : s.Inv) {r : ParseReport} (hwords : r.words.length ≤ Config.wbSize) :
    (r.apply s).Inv := by
  have hlen : r.words.length ≤ 127 := hwords
  have hwcnt : (BitVec.ofNat 8 r.words.length).toNat ≤ Config.wcntMax := by
    rw [BitVec.toNat_ofNat]; show _ ≤ 127; omega
  have hwb := h.writeWb (start := 0) (words := r.words) (by omega)
  exact ((hwb.setWcnt hwcnt).setStatus r.status).of_guarded_eq rfl

/-- What DECODE records keeps the invariant: the text lies in TB and all of it has just been written (R35, R78). -/
theorem State.Inv.applyDecoded {s : State} (h : s.Inv) {v : Decoded} (htext : v.text.length ≤ Config.tbSize)
    (hscale : v.scale = 1 ∨ v.scale = 10 ∨ v.scale = 100) : (v.apply s).Inv := by
  have hlen : v.text.length ≤ 250 := htext
  have htlen : (v.apply s).resTlen.toNat = v.text.length := by
    show (BitVec.ofNat 8 v.text.length).toNat = _
    rw [BitVec.toNat_ofNat]; omega
  have hread : ∀ i, (hi : i < v.text.length) → (v.apply s).tb.read i = some v.text[i] := fun i hi => by
    simpa [Decoded.apply] using Memory.read_writeList_inside s.tb 0 i v.text hi
  exact { h with
    tbWf := Memory.wf_writeList 0 v.text h.tbWf
    tbInBounds := Memory.inBounds_writeList v.text (by omega) h.tbInBounds
    scaleLegal := hscale
    tlenRange := htlen ▸ htext
    textWritten := fun i hi => ⟨_, hread i (htlen ▸ hi)⟩
    statusLegal := statusProduced_code .ok }

/-- Every command keeps the invariant (R33–R35, R50). -/
theorem State.Inv.after_exec {i : Instr} {s t : State} (h : s.Inv) (he : exec i s = .next t) : t.Inv := by
  cases i with
  | crcInit => obtain rfl := finish_eq_next_iff.1 he; exact (h.setStatus .ok).of_guarded_eq rfl
  | crcUpdate => obtain rfl := finish_eq_next_iff.1 he; exact (h.setStatus .ok).of_guarded_eq rfl
  | crcCompute =>
    obtain ⟨-, rfl⟩ | ⟨-, raw, -, -, rfl⟩ := execCrcCompute_next he
    · exact h.setStatus .invalidArgument
    · exact (h.setStatus .ok).of_guarded_eq rfl
  | crcAppend =>
    obtain ⟨-, rfl⟩ | ⟨hn, raw, -, -, rfl⟩ := execCrcAppend_next he
    · exact h.setStatus .invalidArgument
    · have hfit : s.frameLen + (crcTrailer (crc16 raw)).length ≤ Config.fbSize := Nat.add_le_add_right hn 2
      exact ((h.writeFb hfit).setStatus .ok).of_guarded_eq rfl
  | crcValidate =>
    obtain ⟨-, rfl⟩ | ⟨-, rfl⟩ | ⟨-, -, raw, -, -, rfl⟩ := execCrcValidate_next he
    · exact h.setStatus .invalidArgument
    · exact (h.setStatus .ok).of_guarded_eq rfl
    · exact (h.setStatus .ok).of_guarded_eq rfl
  | buildRead =>
    obtain ⟨-, rfl⟩ | ⟨-, rfl⟩ := execBuildRead_next he
    · exact h.setStatus .invalidArgument
    · have hfit (c : Word) : 0 + (requestBody s.opSlave s.opAddr s.opCount ++ crcTrailer c).length ≤ Config.fbSize :=
        Nat.le_of_ble_eq_true rfl
      exact ((h.writeFb (hfit _)).setStatus .ok).of_guarded_eq rfl
  | parse =>
    obtain ⟨-, rfl⟩ | ⟨-, raw, -, -, rfl⟩ := execParse_next he
    · exact (h.setWcnt (Nat.zero_le _)).setStatus .invalidArgument
    · exact h.applyReport (parseFrame_words s.opSlave s.opFc raw).1
  | decode =>
    obtain ⟨-, rfl⟩ | ⟨k, st, -, -, rfl⟩ | ⟨k, words, -, hpass, hlen, -, rfl⟩ := execDecode_next he
    · exact h.setStatus .unsupportedEncoding
    · exact h.setStatus st
    · obtain ⟨-, -, -, -, hwc, -, -⟩ := definitionFailure_none hpass
      obtain ⟨htext, hscale⟩ := decodeKind_bounds (d := s.defReg) k (hlen ▸ hwc)
      exact h.applyDecoded htext hscale

/-- What is written to CMD keeps the invariant, whether it is a command or not (R70, R72). -/
theorem State.Inv.after_issue {code : Byte} {s t : State} (h : s.Inv) (he : issue code s = .next t) : t.Inv := by
  obtain ⟨i, -, hi⟩ | ⟨-, hi⟩ := issue_cases code s
  · exact h.after_exec (hi ▸ he)
  · obtain rfl := Host.Outcome.next.inj (hi ▸ he)
    exact h.setStatus .illegalCommand

/-- A host write that is not refused keeps the invariant: WCNT is the only register of it that a host may write (R26). -/
theorem State.Inv.after_storeReg {s : State} {v : DWord} {r : Reg} (h : s.Inv) (hr : writeRefusal v r = none) :
    (storeReg s v r).Inv := by
  cases r with
  | wcnt =>
    have hv : v.toNat ≤ Config.wcntMax := of_decide_eq_true ((writeRefusal_eq_none_iff v .wcnt).1 hr)
    refine h.setWcnt ?_
    rw [BitVec.toNat_setWidth]
    exact Nat.le_trans (Nat.mod_le _ _) hv
  | _ => exact h.of_guarded_eq rfl

/-- Every host access keeps the invariant. -/
theorem State.Inv.after_hostAccess {a : Access} {s t : State} (h : s.Inv) (he : hostAccess a s = .next t) : t.Inv := by
  obtain ⟨v, rfl⟩ | ⟨r, v, -, -, hr, rfl⟩ | ⟨v, -, -, hi⟩ | ⟨i, v, -, hi, rfl⟩ | ⟨i, v, -, hi, rfl⟩ := hostAccess_cases he
  · exact h.of_guarded_eq rfl
  · exact h.after_storeReg hr
  · exact h.after_issue hi
  · exact h.writeFb (bytes := [v]) hi
  · exact h.writeWb (words := [v]) hi

/-- Settles O47: every buffer is empty, and every register is 0 but ACC and RES_SCALE. -/
theorem resetMeetsTheInvariant : Obligations.ResetMeetsTheInvariant where
  fbWf := rfl
  fbInBounds := rfl
  wbWf := rfl
  wbInBounds := rfl
  tbWf := rfl
  tbInBounds := rfl
  wcntRange := Nat.zero_le _
  scaleLegal := .inl rfl
  tlenRange := Nat.zero_le _
  textWritten := fun i hi => absurd hi (Nat.not_lt_zero i)
  statusLegal := rfl

/-- Settles O48: a step is idle, a reset or a host access, and taking the input off `pending` is outside the invariant. -/
theorem everyStepKeepsTheInvariant : Obligations.EveryStepKeepsTheInvariant := by
  intro s t h hstep
  obtain ⟨-, rfl⟩ | ⟨rest, -, rfl⟩ | ⟨a, rest, -, ha⟩ := step_cases hstep
  · exact h
  · exact State.Inv.of_guarded_eq resetMeetsTheInvariant rfl
  · have htaken : State.Inv { s with pending := rest } := h.of_guarded_eq rfl
    exact htaken.after_hostAccess ha

end Sys2Proof.Machine
end

section
/-! ### What a command can answer: a next state, or the fault of the first unwritten element of its range (R37, R224) -/

namespace Sys2Proof.Machine

/-- Element `k` is the first of a buffer's first `n` elements that nothing has written (R36). -/
def State.firstUnwritten (s : State) (b : Buffer) (n k : Nat) : Prop :=
  k < n ∧ s.isWritten b k = false ∧ ∀ j, j < k → s.isWritten b j = true

/-- A range has at most one first unwritten element. -/
theorem State.firstUnwritten_unique {s : State} {b : Buffer} {n k k' : Nat} (h : s.firstUnwritten b n k)
    (h' : s.firstUnwritten b n k') : k = k' := by
  obtain ⟨-, hk, hbelow⟩ := h
  obtain ⟨-, hk', hbelow'⟩ := h'
  rcases Nat.lt_trichotomy k k' with hlt | heq | hgt
  · simp [hbelow' k hlt] at hk
  · exact heq
  · simp [hbelow k' hgt] at hk'

/-- A result is that of reading a range: it is a next state and the whole range is written, or it is the fault of the range's first
unwritten element; with no range it is a next state. -/
def ReadsRange (range : Option (Buffer × Nat)) (s : State) (result : Result) : Prop :=
  ((∃ t, result = .next t) ∧ ∀ b n, range = some (b, n) → ∀ k, k < n → s.isWritten b k = true) ∨
  (∃ b n k, range = some (b, n) ∧ s.firstUnwritten b n k ∧ result = .fault (.unwrittenRead b k))

/-- A command that fails before its read, or reads nothing, reads no range. -/
theorem readsRange_finish (st : Status) (s s' : State) : ReadsRange none s (finish st s') :=
  .inl ⟨⟨_, rfl⟩, by simp⟩

/-- `withFrame` reads FB's first `n` bytes, if the remainder always completes. -/
theorem readsRange_withFrame {n : Nat} {s : State} {go : List Byte → Result} (hgo : ∀ raw, ∃ t, go raw = .next t) :
    ReadsRange (some (.fb, n)) s (withFrame n s go) := by
  obtain ⟨raw, hlen, hraw, hrun⟩ | ⟨i, hi, hnone, hbelow, hrun⟩ := withFrame_cases n s go
  · refine .inl ⟨hrun ▸ hgo raw, ?_⟩
    rintro _ _ ⟨⟩ k hk
    simp [State.isWritten, hraw k (hlen ▸ hk)]
  · exact .inr ⟨.fb, n, i, rfl, ⟨hi, by simp [State.isWritten, hnone], hbelow⟩, hrun⟩

/-- `withWords` reads WB's first `n` words, if the remainder always completes. -/
theorem readsRange_withWords {n : Nat} {s : State} {go : List Word → Result} (hgo : ∀ words, ∃ t, go words = .next t) :
    ReadsRange (some (.wb, n)) s (withWords n s go) := by
  obtain ⟨words, hlen, hwords, hrun⟩ | ⟨i, hi, hnone, hbelow, hrun⟩ := withWords_cases n s go
  · refine .inl ⟨hrun ▸ hgo words, ?_⟩
    rintro _ _ ⟨⟩ k hk
    simp [State.isWritten, hwords k (hlen ▸ hk)]
  · exact .inr ⟨.wb, n, i, rfl, ⟨hi, by simp [State.isWritten, hnone], hbelow⟩, hrun⟩

/-- A command that fails above a limit of OP_LEN, and below it reads FB, reads the range up to OP_LEN (R105, R106, R150). -/
theorem readsRange_boundedFrame {n limit : Nat} {s s' : State} {st : Status} {go : List Byte → Result}
    (hgo : ∀ raw, ∃ t, go raw = .next t) :
    ReadsRange (if n ≤ limit then some (.fb, n) else none) s (if n > limit then finish st s' else withFrame n s go) := by
  by_cases hn : n ≤ limit
  · rw [if_pos hn, if_neg (Nat.not_lt.2 hn)]
    exact readsRange_withFrame hgo
  · rw [if_neg hn, if_pos (Nat.lt_of_not_le hn)]
    exact readsRange_finish st s s'

/-- CRC_VALIDATE reads FB for a length of 2 to 260 (R108, R109). -/
theorem readsRange_execCrcValidate (s : State) : ReadsRange (readRangeOf .crcValidate s) s (execCrcValidate s) := by
  show ReadsRange (if 2 ≤ s.frameLen ∧ s.frameLen ≤ Config.fbSize then some (.fb, s.frameLen) else none) s _
  unfold execCrcValidate
  by_cases hlong : s.frameLen > Config.fbSize
  · rw [if_pos hlong, if_neg fun h => Nat.not_lt.2 h.2 hlong]
    exact readsRange_finish .invalidArgument s s
  · rw [if_neg hlong]
    by_cases hshort : s.frameLen < 2
    · rw [if_pos hshort, if_neg fun h => Nat.not_lt.2 h.1 hshort]
      exact readsRange_finish .ok s _
    · rw [if_neg hshort, if_pos ⟨Nat.not_lt.1 hshort, Nat.not_lt.1 hlong⟩]
      exact readsRange_withFrame fun _ => ⟨_, rfl⟩

/-- DECODE's checks all pass exactly when KIND names an encoding and no check of it fails. -/
theorem definitionPasses_iff (s : State) :
    s.definitionPasses = true ↔
      ∃ k, kindOf (defKind s.defReg) = some k ∧ definitionFailure s.defReg s.wcnt k = none := by
  simp [State.definitionPasses, Option.any_eq_true]

/-- DECODE reads the WC words of WB once every check has passed (R37). -/
theorem readsRange_execDecode (s : State) : ReadsRange (readRangeOf .decode s) s (execDecode s) := by
  cases hk : kindOf (defKind s.defReg) with
  | none =>
    have hfails : ¬ s.definitionPasses = true := by simp [definitionPasses_iff, hk]
    rw [readRangeOf, if_neg hfails, execDecode_of_noKind hk]
    exact readsRange_finish .unsupportedEncoding s s
  | some k =>
    cases hf : definitionFailure s.defReg s.wcnt k with
    | some st =>
      have hfails : ¬ s.definitionPasses = true := by simp [definitionPasses_iff, hk, hf]
      rw [readRangeOf, if_neg hfails, execDecode_of_fails hk hf]
      exact readsRange_finish st s s
    | none =>
      rw [readRangeOf, if_pos ((definitionPasses_iff s).2 ⟨k, hk, hf⟩)]
      simp only [execDecode, hk, hf]
      exact readsRange_withWords fun _ => ⟨_, rfl⟩

/-- Every command reads the range its rule names, once its own checks have passed, and does nothing else that could stop it
(R37, R224). -/
theorem readsRange_exec (i : Instr) (s : State) : ReadsRange (readRangeOf i s) s (exec i s) := by
  cases i with
  | crcInit => exact readsRange_finish .ok s _
  | crcUpdate => exact readsRange_finish .ok s _
  | crcCompute => exact readsRange_boundedFrame fun _ => ⟨_, rfl⟩
  | crcAppend => exact readsRange_boundedFrame fun _ => ⟨_, rfl⟩
  | crcValidate => exact readsRange_execCrcValidate s
  | buildRead =>
    simp only [exec, execBuildRead, readRangeOf]
    split
    · exact readsRange_finish .invalidArgument s s
    · exact readsRange_finish .ok s _
  | parse => exact readsRange_boundedFrame fun _ => ⟨_, rfl⟩
  | decode => exact readsRange_execDecode s

/-- No command is refused (R224). -/
theorem exec_ne_refused (i : Instr) (s : State) (why : Refusal) : exec i s ≠ .refused why := by
  obtain ⟨⟨t, ht⟩, -⟩ | ⟨b, n, k, -, -, hf⟩ := readsRange_exec i s
  · simp [ht]
  · simp [hf]

/-- A command faults exactly at the first unwritten element of its range (R37). -/
theorem exec_fault_iff (i : Instr) (s : State) (f : Fault) :
    exec i s = .fault f ↔
      ∃ b n k, readRangeOf i s = some (b, n) ∧ s.firstUnwritten b n k ∧ f = .unwrittenRead b k := by
  obtain ⟨⟨t, ht⟩, hall⟩ | ⟨b, n, k, hrange, hfirst, hf⟩ := readsRange_exec i s
  · simp only [ht, reduceCtorEq, false_iff]
    rintro ⟨b, n, k, hrange, ⟨hk, hunwritten, -⟩, -⟩
    simp [hall b n hrange k hk] at hunwritten
  · constructor
    · intro he
      exact ⟨b, n, k, hrange, hfirst, Host.Outcome.fault.inj (he.symm.trans hf)⟩
    · rintro ⟨b', n', k', hrange', hfirst', rfl⟩
      obtain ⟨rfl, rfl⟩ := Prod.mk.inj (Option.some.inj (hrange.symm.trans hrange'))
      rw [hf, State.firstUnwritten_unique hfirst hfirst']

/-- Settles O52: a command does what `ReadsRange` allows and nothing else. -/
theorem commandsFaultExactlyOnUnwrittenElements : Obligations.CommandsFaultExactlyOnUnwrittenElements := by
  intro i s
  refine ⟨fun f => ?_, exec_ne_refused i s⟩
  simp only [exec_fault_iff, State.firstUnwritten, and_assoc]

end Sys2Proof.Machine
end

section
/-! ### Which inputs are refused (R22, R56, D35) -/

namespace Sys2Proof.Machine

/-- Nothing written to CMD is refused: a command never is, and a code that is no command sets STATUS (R72, R224). -/
theorem issue_ne_refused (code : Byte) (s : State) (why : Refusal) : issue code s ≠ .refused why := by
  obtain ⟨i, -, hi⟩ | ⟨-, hi⟩ := issue_cases code s
  · exact hi ▸ exec_ne_refused i s why
  · simp [hi]

/-- A buffer read is refused exactly when its index is outside the buffer (R56). -/
theorem readElement_refused_iff (b : Buffer) (size i : Nat) (value : Option DWord) (s : State) :
    (∃ why, readElement b size i value s = .refused why) ↔ ¬ i < size := by
  unfold readElement
  split
  · cases value <;> simp [unwritten, *]
  · simp [*]

/-- A register write is refused exactly when it is ill formed (R22, R26, R56, D35). -/
theorem hostWriteReg_refused_iff (r : Reg) (v : DWord) (s : State) :
    (∃ why, hostWriteReg r v s = .refused why) ↔ (Access.wr r v).wf = false := by
  rw [← Bool.not_eq_true, ← writeRefusal_eq_none_iff]
  unfold hostWriteReg
  split
  · next why hwhy => simp [hwhy]
  · next hnone =>
    split
    · simp [hnone, issue_ne_refused]
    · simp [hnone]

/-- A host access is refused exactly when it is ill formed (R56). -/
theorem hostAccess_refused_iff (a : Access) (s : State) :
    (∃ why, hostAccess a s = .refused why) ↔ a.wf = false := by
  cases a with
  | rd r => cases r <;> simp [hostAccess, hostReadReg, readReg, Access.wf]
  | wr r v => exact hostWriteReg_refused_iff r v s
  | rdb i => simp [hostAccess, readElement_refused_iff, Access.wf]
  | rdw i => simp [hostAccess, readElement_refused_iff, Access.wf]
  | rdt i => simp [hostAccess, readElement_refused_iff, Access.wf]
  | wrb i v => by_cases hi : i < Config.fbSize <;> simp [hostAccess, hostWriteFb, Access.wf, hi]
  | wrw i v => by_cases hi : i < Config.wbSize <;> simp [hostAccess, hostWriteWb, Access.wf, hi]
  | wrt i v => simp [hostAccess, Access.wf]
  | rdwByte i => simp [hostAccess, Access.wf]
  | wrwByte i v => simp [hostAccess, Access.wf]

/-- Settles O11: an idle step and a reset complete, and an access is refused exactly when it is ill formed. -/
theorem stepRefusesExactlyIllFormedAccesses : Obligations.StepRefusesExactlyIllFormedAccesses := by
  intro s
  cases hp : s.pending with
  | nil => simp [step_of_idle hp]
  | cons e rest =>
    cases e with
    | reset => simp [step_of_reset hp]
    | access a => simp [step_of_access hp, hostAccess_refused_iff]

end Sys2Proof.Machine
end

section
/-! ### ACC over a step, and RES_BC after a PARSE with OK (R30, R32) -/

namespace Sys2Proof.Machine

/-- Every row of the opcode table fixes all eight bits, to its command's code (R71). -/
theorem opcodeTable_rows : ∀ row ∈ opcodeTable, row.mask = 0xFF ∧ row.pattern = row.instr.code := by decide

/-- A command is read from its own code only (R71, R72). -/
theorem eq_code_of_decodeCode {code : Byte} {i : Instr} (h : decodeCode code = some i) : code = i.code := by
  obtain ⟨row, hfind, rfl⟩ := Option.map_eq_some_iff.1 h
  obtain ⟨hmask, hpattern⟩ := opcodeTable_rows row (List.mem_of_find?_eq_some hfind)
  have hcovers : row.covers code = true := List.find?_some (p := (OpcodeRow.covers · code)) hfind
  have hall : code &&& 0xFF = code := BitVec.and_allOnes
  rw [OpcodeRow.covers, hmask, hall, hpattern] at hcovers
  exact eq_of_beq hcovers

/-- A write of CMD that executes a command carries that command's code (R70, R71). -/
theorem eq_code_of_writeCmd {v : DWord} {i : Instr} (hfits : writeRefusal v .cmd = none)
    (hcode : decodeCode (v.setWidth 8) = some i) : v = i.code.setWidth 32 := by
  have hlt : v.toNat < 2 ^ 8 := (widthRefusal_eq_none_iff .cmd v 8).1 hfits
  rw [← eq_code_of_decodeCode hcode]
  apply BitVec.eq_of_toNat_eq
  simp only [BitVec.toNat_setWidth]
  omega

/-- Of the commands only the two streaming ones change ACC (R32, R102, R103). -/
theorem exec_acc {i : Instr} {s t : State} (h : exec i s = .next t) :
    t.acc = s.acc ∨ (i = .crcInit ∧ t.acc = 0xFFFF) ∨ (i = .crcUpdate ∧ t.acc = crcStep s.acc s.opData) := by
  cases i with
  | crcInit => obtain rfl := finish_eq_next_iff.1 h; exact .inr (.inl ⟨rfl, rfl⟩)
  | crcUpdate => obtain rfl := finish_eq_next_iff.1 h; exact .inr (.inr ⟨rfl, rfl⟩)
  | crcCompute => obtain ⟨-, rfl⟩ | ⟨-, raw, -, -, rfl⟩ := execCrcCompute_next h <;> exact .inl rfl
  | crcAppend => obtain ⟨-, rfl⟩ | ⟨-, raw, -, -, rfl⟩ := execCrcAppend_next h <;> exact .inl rfl
  | crcValidate => obtain ⟨-, rfl⟩ | ⟨-, rfl⟩ | ⟨-, -, raw, -, -, rfl⟩ := execCrcValidate_next h <;> exact .inl rfl
  | buildRead => obtain ⟨-, rfl⟩ | ⟨-, rfl⟩ := execBuildRead_next h <;> exact .inl rfl
  | parse => obtain ⟨-, rfl⟩ | ⟨-, raw, -, -, rfl⟩ := execParse_next h <;> exact .inl rfl
  | decode =>
    obtain ⟨-, rfl⟩ | ⟨k, st, -, -, rfl⟩ | ⟨k, words, -, -, -, -, rfl⟩ := execDecode_next h <;> exact .inl rfl

/-- No host write of a register reaches ACC (R22). -/
@[simp] theorem storeReg_acc (s : State) (v : DWord) (r : Reg) : (storeReg s v r).acc = s.acc := by cases r <;> rfl

/-- A host access that changes ACC issues one of the two streaming commands (R32). -/
theorem hostAccess_acc {a : Access} {s t : State} (h : hostAccess a s = .next t) :
    t.acc = s.acc ∨ (a = .wr .cmd 0x01 ∧ t.acc = 0xFFFF) ∨ (a = .wr .cmd 0x02 ∧ t.acc = crcStep s.acc s.opData) := by
  obtain ⟨v, rfl⟩ | ⟨r, v, -, -, -, rfl⟩ | ⟨v, rfl, hfits, hissue⟩ | ⟨i, v, -, -, rfl⟩ | ⟨i, v, -, -, rfl⟩ :=
    hostAccess_cases h
  · exact .inl rfl
  · exact .inl (storeReg_acc s v r)
  · obtain ⟨i, hcode, hexec⟩ | ⟨-, hillegal⟩ := issue_cases (v.setWidth 8) s
    · obtain rfl := eq_code_of_writeCmd hfits hcode
      obtain hsame | ⟨rfl, hacc⟩ | ⟨rfl, hacc⟩ := exec_acc (hexec ▸ hissue)
      · exact .inl hsame
      · exact .inr (.inl ⟨rfl, hacc⟩)
      · exact .inr (.inr ⟨rfl, hacc⟩)
    · obtain rfl := Host.Outcome.next.inj (hillegal ▸ hissue)
      exact .inl rfl
  · exact .inl rfl
  · exact .inl rfl

/-- Settles O17: an idle step keeps ACC, a reset sets it, and of the accesses only the two streaming commands change it. -/
theorem accumulatorChangesOnlyByItsTwoCommands : Obligations.AccumulatorChangesOnlyByItsTwoCommands := by
  intro s t hstep hne
  obtain ⟨-, rfl⟩ | ⟨rest, hp, rfl⟩ | ⟨a, rest, hp, ha⟩ := step_cases hstep
  · exact absurd rfl hne
  · exact ⟨.reset, rest, hp, .inr (.inr ⟨rfl, rfl⟩)⟩
  · refine ⟨.access a, rest, hp, ?_⟩
    obtain hsame | ⟨rfl, hacc⟩ | ⟨rfl, hacc⟩ := hostAccess_acc ha
    · exact absurd hsame hne
    · exact .inl ⟨rfl, hacc⟩
    · exact .inr (.inl ⟨rfl, hacc⟩)

/-- OK is the only outcome with the code 0x00 (R80). -/
theorem Status.code_eq_zero_iff (st : Status) : st.code = 0x00 ↔ st = .ok := by
  cases st <;> decide

/-- A report of OK carries a byte count, which is twice the number of its words (R155–R157). -/
theorem parseFrame_of_ok {slave fc : Byte} {raw : List Byte} (hok : (parseFrame slave fc raw).status = .ok) :
    ∃ bc, (parseFrame slave fc raw).resBc = some bc ∧ bc.toNat = 2 * (parseFrame slave fc raw).words.length := by
  obtain ⟨-, h⟩ | ⟨-, -, h⟩ | ⟨-, -, -, h⟩ | ⟨-, -, -, -, h⟩ | ⟨-, -, -, -, h⟩ := parseFrame_cases slave fc raw
  · simp [h] at hok
  · simp [h] at hok
  · obtain ⟨-, e⟩ | ⟨-, c, -, ⟨-, e⟩ | ⟨-, e⟩⟩ := parseException_cases raw <;> simp [h, e] at hok
  · simp [h] at hok
  · obtain ⟨-, e⟩ | ⟨-, e⟩ | ⟨-, c, -, ⟨-, e⟩ | ⟨-, -, e⟩ | ⟨-, heven, e⟩⟩ := parseSuccess_cases raw
    · simp [h, e] at hok
    · simp [h, e] at hok
    · simp [h, e] at hok
    · simp [h, e] at hok
    · refine ⟨byteAt raw 2, by simp [h, e], ?_⟩
      simp only [h, e, length_payloadWords]
      omega

/-- Settles O34: RES_BC is the report's byte count, and WCNT the number of its words, which fits in a byte. -/
theorem byteCountIsTwiceTheWordCount : Obligations.ByteCountIsTwiceTheWordCount := by
  intro s t hexec hstatus
  obtain ⟨-, rfl⟩ | ⟨-, raw, -, -, rfl⟩ := execParse_next hexec
  · exact absurd ((Status.code_eq_zero_iff .invalidArgument).1 hstatus) (by decide)
  · obtain ⟨bc, hbc, hwords⟩ := parseFrame_of_ok ((Status.code_eq_zero_iff _).1 hstatus)
    have hlt := bc.isLt
    simp only [ParseReport.apply, State.setStatus_resBc, State.setStatus_wcnt, hbc, Option.getD_some,
      BitVec.toNat_ofNat]
    omega

end Sys2Proof.Machine
end

section
/-! ### Host writes of a buffer element, and the accesses R56 lists (R51, R52, R56, R57) -/

namespace Sys2Proof.Machine

section BufferWrite

variable {s : State} {rest : List Input} {i : Nat}

/-- A step that writes a byte of FB stores it and takes the input (R51, R57). -/
theorem step_of_writeFb {v : Byte} (hi : i < Config.fbSize) (hp : s.pending = .access (.wrb i v) :: rest) :
    step s = .next { s with pending := rest, fb := s.fb.write i v } := by
  rw [step_of_access hp, hostAccess, hostWriteFb, if_pos hi]

/-- A step that writes a word of WB stores it and takes the input (R52, R57). -/
theorem step_of_writeWb {v : Word} (hi : i < Config.wbSize) (hp : s.pending = .access (.wrw i v) :: rest) :
    step s = .next { s with pending := rest, wb := s.wb.write i v } := by
  rw [step_of_access hp, hostAccess, hostWriteWb, if_pos hi]

end BufferWrite

/-- Settles O8: the next state's buffer is the old one with one element written. -/
theorem bufferWritesStoreOneElement : Obligations.BufferWritesStoreOneElement := by
  intro s rest i
  refine ⟨fun v hi hp => ⟨_, step_of_writeFb hi hp, rfl, ?_, fun a ha => ?_⟩,
    fun v hi hp => ⟨_, step_of_writeWb hi hp, rfl, ?_, fun a ha => ?_⟩⟩
  · exact Memory.read_write_same s.fb i v
  · exact Memory.read_write_other s.fb v ha
  · exact Memory.read_write_same s.wb i v
  · exact Memory.read_write_other s.wb v ha

/-- A step whose next input is an ill-formed access is refused (R56). -/
theorem step_refused_of_illFormed {s : State} {a : Access} {rest : List Input} (hp : s.pending = .access a :: rest)
    (hwf : a.wf = false) : ∃ why, step s = .refused why :=
  (stepRefusesExactlyIllFormedAccesses s).2 ⟨a, rest, hp, hwf⟩

/-- Settles O10: each access of the list is ill formed. -/
theorem listedAccessesAreRefused : Obligations.ListedAccessesAreRefused := by
  intro s rest a hp hlisted
  refine step_refused_of_illFormed hp ?_
  obtain ⟨i, hi, rfl | ⟨v, rfl⟩⟩ | ⟨i, hi, rfl | ⟨v, rfl⟩⟩ | ⟨i, hi, rfl⟩ | ⟨r, v, hr, rfl⟩ | rfl | ⟨i, v, rfl⟩ |
    ⟨v, hv, rfl⟩ | ⟨i, rfl | ⟨v, rfl⟩⟩ := hlisted
  · exact decide_eq_false (Nat.not_lt.2 hi)
  · exact decide_eq_false (Nat.not_lt.2 hi)
  · exact decide_eq_false (Nat.not_lt.2 hi)
  · exact decide_eq_false (Nat.not_lt.2 hi)
  · exact decide_eq_false (Nat.not_lt.2 hi)
  · have hreadOnly : ∀ r ∈ [Reg.status, .acc, .resCrc, .resValid, .excCode, .resBc, .resVal, .resScale, .resTlen],
        r.writeLimit = none := by decide
    rw [Access.wf, hreadOnly r hr, Option.any_none]
  · rfl
  · rfl
  · exact decide_eq_false (Nat.not_le.2 hv)
  · rfl
  · rfl

end Sys2Proof.Machine
end

section
/-! ### The checksum over a frame and its trailer: 0 exactly when the trailer is the checksum (R87, R100, R101) -/

namespace Sys2Proof.Machine

/-- A shift takes back one place of a left shift that lost no bit: the bit it shifts out is a zero (R100). -/
theorem crcShift_shiftLeft_succ {n : Nat} {x : Word} (h : x.toNat * 2 ^ (n + 1) < 2 ^ 16) :
    crcShift (x <<< (n + 1)) = x <<< n := by
  have hpow : x.toNat * 2 ^ (n + 1) = 2 * (x.toNat * 2 ^ n) := by ring
  have hlow : (x <<< (n + 1)).getLsbD 0 = false := by simp
  rw [crcShift, hlow, if_neg Bool.false_ne_true]
  apply BitVec.eq_of_toNat_eq
  simp only [BitVec.toNat_ushiftRight, BitVec.toNat_shiftLeft, Nat.shiftLeft_eq, Nat.shiftRight_eq_div_pow]
  rw [Nat.mod_eq_of_lt h, Nat.mod_eq_of_lt (by omega), hpow]
  omega

/-- So `n` shifts take back a left shift by `n` that lost no bit. -/
theorem crcShifts_shiftLeft (n : Nat) {x : Word} (h : x.toNat * 2 ^ n < 2 ^ 16) : crcShifts n (x <<< n) = x := by
  induction n with
  | zero => exact BitVec.shiftLeft_zero x
  | succ n ih =>
    rw [crcShifts, crcShift_shiftLeft_succ h]
    exact ih (Nat.lt_of_le_of_lt (Nat.mul_le_mul_left _ (Nat.pow_le_pow_right (by omega) n.le_succ)) h)

/-- Different words stay different through the shifts: they are linear, and only zero goes to zero (R110). -/
theorem crcShifts_inj {n : Nat} {a b : Word} : crcShifts n a = crcShifts n b ↔ a = b := by
  refine ⟨fun h => ?_, congrArg _⟩
  have hxor : crcShifts n (a ^^^ b) = 0 := by rw [crcShifts_xor, h, BitVec.xor_self]; rfl
  exact BitVec.xor_eq_zero_iff.1 (crcShifts_eq_zero hxor)

/-- A byte step answers 0 exactly when the accumulator is the byte itself (R100). -/
theorem crcStep_eq_zero_iff {a : Word} {b : Byte} : crcStep a b = 0 ↔ a = b.setWidth 16 := by
  rw [← BitVec.xor_eq_zero_iff (x := a)]
  refine ⟨crcShifts_eq_zero, fun h => ?_⟩
  rw [crcStep, h]
  rfl

/-- A word without its low byte is its high byte, moved up. -/
theorem joinBytes_xor_lo (hi lo : Byte) : joinBytes hi lo ^^^ lo.setWidth 16 = hi.setWidth 16 <<< 8 := by
  apply BitVec.eq_of_getLsbD_eq
  intro i hi16
  have hbit : (joinBytes hi lo).getLsbD i = if i < 8 then lo.getLsbD i else hi.getLsbD (i - 8) :=
    BitVec.getLsbD_append
  rw [BitVec.getLsbD_xor, hbit]
  by_cases h : i < 8
  · simp [h, hi16]
  · simp [h, hi16, BitVec.getLsbD_of_ge lo i (Nat.not_lt.1 h)]

/-- A byte step answers a single byte exactly when the accumulator is that byte in its high half and the byte taken in its low
half. -/
theorem crcStep_eq_setWidth_iff {a : Word} {lo hi : Byte} :
    crcStep a lo = hi.setWidth 16 ↔ a = joinBytes hi lo := by
  have hfit : (hi.setWidth 16 : Word).toNat * 2 ^ 8 < 2 ^ 16 := by
    rw [BitVec.toNat_setWidth]
    have := hi.isLt
    omega
  rw [crcStep, ← crcShifts_shiftLeft 8 hfit, crcShifts_inj, ← joinBytes_xor_lo hi lo, BitVec.xor_left_inj]

/-- A frame sums to 0 exactly when its last two bytes are the checksum of the bytes before them, low byte first (R87). -/
theorem crc16_append_trailer_eq_zero_iff (body : List Byte) (lo hi : Byte) :
    crc16 (body ++ [lo, hi]) = 0 ↔ crc16 body = joinBytes hi lo := by
  rw [show body ++ [lo, hi] = (body ++ [lo]) ++ [hi] by simp, crc16_snoc, crc16_snoc, crcStep_eq_zero_iff,
    crcStep_eq_setWidth_iff]

/-- Settles O20: the trailer's two bytes as a number are those of `joinBytes`. -/
theorem trailerIsValidExactlyWhenTheFrameSumsToZero : Obligations.TrailerIsValidExactlyWhenTheFrameSumsToZero := by
  intro body lo hi
  rw [crc16_append_trailer_eq_zero_iff, ← BitVec.toNat_inj, toNat_joinBytes, Nat.mul_comm, Nat.add_comm]

end Sys2Proof.Machine
end

section
/-! ### Genuine frames: what PARSE accepts, and that it gives back what a response was built around (R82, R86, R150–R160) -/

namespace Sys2Proof.Machine

open Sys2Proof.Slice0

/-- A range write from index 0 leaves the elements from its end on as they were. -/
theorem Memory.read_writeList_above {w : Nat} (m : Memory w) {vs : List (BitVec w)} {n : Nat} (hn : vs.length ≤ n) :
    ∀ a, n ≤ a → (m.writeList 0 vs).read a = m.read a :=
  fun a ha => Memory.read_writeList_outside m 0 a vs (.inr (by omega))

/-- Within a sequence `byteAt` is the byte itself, not its default. -/
theorem byteAt_eq_getElem {raw : List Byte} {i : Nat} (h : i < raw.length) : byteAt raw i = raw[i] :=
  List.getD_eq_getElem raw 0 h

theorem getElem?_eq_byteAt {raw : List Byte} {i : Nat} (h : i < raw.length) : raw[i]? = some (byteAt raw i) := by
  rw [byteAt_eq_getElem h, List.getElem?_eq_getElem h]

/-- A sequence is what comes before its last two bytes, and those. -/
theorem eq_take_append_trailer {raw : List Byte} {n : Nat} (hlen : raw.length = n + 2) :
    raw = raw.take n ++ [byteAt raw n, byteAt raw (n + 1)] := by
  have h0 : n < raw.length := by omega
  have h1 : n + 1 < raw.length := by omega
  rw [byteAt_eq_getElem h0, byteAt_eq_getElem h1]
  have hdrop : raw.drop n = [raw[n], raw[n + 1]] := by
    rw [List.drop_eq_getElem_cons h0, List.drop_eq_getElem_cons h1, List.drop_eq_nil_of_le (by omega)]
  rw [← hdrop, List.take_append_drop]

/-- A frame's trailer matches the checksum of the bytes before it exactly when the whole frame sums to 0 (R87). -/
theorem trailerMatches_iff_sum {raw : List Byte} {n : Nat} (hlen : raw.length = n + 2) :
    trailerMatches (crc16 (raw.take n)) raw n = true ↔ crc16 raw = 0 := by
  have hsum := crc16_append_trailer_eq_zero_iff (raw.take n) (byteAt raw n) (byteAt raw (n + 1))
  rw [← eq_take_append_trailer hlen] at hsum
  rw [hsum, trailerMatches, beq_iff_eq, trailerAt]

/-- The success path of a frame of the right length that sums to 0 and has an even byte count is OK (R155–R157). -/
theorem parseSuccess_of_sum {raw : List Byte} (hlen : raw.length = 5 + (byteAt raw 2).toNat) (hsum : crc16 raw = 0)
    (heven : (byteAt raw 2).toNat % 2 = 0) :
    parseSuccess raw = {
      status := .ok
      resBc := some (byteAt raw 2)
      resCrc := some (crc16 (raw.take (3 + (byteAt raw 2).toNat)))
      words := payloadWords raw 3 ((byteAt raw 2).toNat / 2) } := by
  have hmatch := (trailerMatches_iff_sum (n := 3 + (byteAt raw 2).toNat) (by omega)).2 hsum
  obtain ⟨hshort, -⟩ | ⟨hlong, -⟩ | ⟨-, c, rfl, ⟨hbad, -⟩ | ⟨-, hodd, -⟩ | ⟨-, -, h⟩⟩ := parseSuccess_cases raw
  · omega
  · omega
  · simp [hmatch] at hbad
  · omega
  · exact h

/-- The header of a success response of the expected slave and function leads to the success path (R152–R155, R159). -/
theorem parseFrame_of_header {slave fc : Byte} {raw : List Byte} (hlen : 5 ≤ raw.length) (hslave : byteAt raw 0 = slave)
    (hcode : byteAt raw 1 = fc) (hfc : fc ≠ exceptionCodeOf fc) : parseFrame slave fc raw = parseSuccess raw := by
  obtain ⟨hshort, -⟩ | ⟨-, hother, -⟩ | ⟨-, -, hexc, -⟩ | ⟨-, -, -, hother, -⟩ | ⟨-, -, -, -, h⟩ :=
    parseFrame_cases slave fc raw
  · omega
  · exact absurd hslave hother
  · exact absurd (hcode.symm.trans hexc) hfc
  · exact absurd hcode hother
  · exact h

section Response

variable (slave fc : Byte) (words : List Word)

/-- A success response without its trailer: `asciiText` gives its payload, two bytes a word, high byte first (R82, R86). -/
def responseBody : List Byte := slave :: fc :: BitVec.ofNat 8 (2 * words.length) :: asciiText words

theorem hiByte_eq_ofNat (w : Word) : hiByte w = BitVec.ofNat 8 (w.toNat / 256) := by
  rw [← toNat_hiByte, BitVec.ofNat_toNat, BitVec.setWidth_eq]

theorem loByte_eq_ofNat (w : Word) : loByte w = BitVec.ofNat 8 (w.toNat % 256) := by
  rw [← toNat_loByte, BitVec.ofNat_toNat, BitVec.setWidth_eq]

theorem sentLowFirst_eq_crcTrailer (c : Word) : sentLowFirst c = crcTrailer c := by
  rw [sentLowFirst, crcTrailer, loByte_eq_ofNat, hiByte_eq_ofNat]

theorem flatMap_bytes_eq_asciiText :
    (words.flatMap fun w => [BitVec.ofNat 8 (w.toNat / 256), BitVec.ofNat 8 (w.toNat % 256)]) = asciiText words := by
  induction words with
  | nil => rfl
  | cons w ws ih => rw [List.flatMap_cons, ih, asciiText, hiByte_eq_ofNat, loByte_eq_ofNat]; rfl

theorem responseFrame_eq :
    responseFrame slave fc words = responseBody slave fc words ++ crcTrailer (crc16 (responseBody slave fc words)) := by
  rw [responseFrame, flatMap_bytes_eq_asciiText, sentLowFirst_eq_crcTrailer]
  rfl

theorem length_responseBody : (responseBody slave fc words).length = 3 + 2 * words.length := by
  simp only [responseBody, List.length_cons, length_asciiText]
  omega

theorem length_responseFrame : (responseFrame slave fc words).length = 5 + 2 * words.length := by
  simp only [responseFrame_eq, List.length_append, length_responseBody, crcTrailer, List.length_cons, List.length_nil]
  omega

/-- A response frame carries its own checksum. -/
theorem crc16_responseFrame : crc16 (responseFrame slave fc words) = 0 := by
  rw [responseFrame_eq, crcTrailer, crc16_append_trailer_eq_zero_iff, joinBytes_hi_lo]

/-- A payload of words, wherever it stands in a frame, is unpacked into those words (R86, R157). -/
theorem payloadWords_asciiText (before after : List Byte) :
    payloadWords (before ++ asciiText words ++ after) before.length words.length = words := by
  induction words generalizing before with
  | nil => rfl
  | cons w ws ih =>
    have hframe : before ++ asciiText (w :: ws) ++ after = before ++ [hiByte w, loByte w] ++ asciiText ws ++ after := by
      simp [asciiText]
    have hrest := ih (before ++ [hiByte w, loByte w])
    rw [List.length_append] at hrest
    have hhi : byteAt (before ++ asciiText (w :: ws) ++ after) before.length = hiByte w := by simp [byteAt, asciiText]
    have hlo : byteAt (before ++ asciiText (w :: ws) ++ after) (before.length + 1) = loByte w := by
      simp [byteAt, asciiText]
    rw [List.length_cons, payloadWords, hhi, hlo, joinBytes_hi_lo, hframe]
    exact congrArg (w :: ·) hrest

/-- PARSE's checks pass on a response of the expected slave and function, and its words come out of its payload. -/
theorem parseFrame_responseFrame (hlen : words.length ≤ Config.wbSize) (hfc : fc ≠ exceptionCodeOf fc) :
    parseFrame slave fc (responseFrame slave fc words) = {
      status := .ok
      resBc := some (BitVec.ofNat 8 (2 * words.length))
      resCrc := some (crc16 (responseBody slave fc words))
      words := words } := by
  have hlen : words.length ≤ 127 := hlen
  have hframe := responseFrame_eq slave fc words
  have hbc : byteAt (responseFrame slave fc words) 2 = BitVec.ofNat 8 (2 * words.length) := by rw [hframe]; rfl
  have hcount : (byteAt (responseFrame slave fc words) 2).toNat = 2 * words.length := by
    rw [hbc, BitVec.toNat_ofNat]
    omega
  have hbody : (responseFrame slave fc words).take (3 + 2 * words.length) = responseBody slave fc words := by
    rw [hframe, List.take_left' (length_responseBody slave fc words)]
  have hpayload : payloadWords (responseFrame slave fc words) 3 words.length = words := by
    rw [hframe]
    exact payloadWords_asciiText words [slave, fc, BitVec.ofNat 8 (2 * words.length)] _
  rw [parseFrame_of_header (by rw [length_responseFrame]; omega) (by rw [hframe]; rfl) (by rw [hframe]; rfl) hfc,
    parseSuccess_of_sum (by rw [hcount, length_responseFrame]) (crc16_responseFrame slave fc words) (by omega), hcount,
    hbc, hbody, Nat.mul_div_cancel_left _ (by omega), hpayload]

end Response

/-- The words of a report are what WB holds after it is recorded (R157). -/
theorem ParseReport.wordsAre_apply (r : ParseReport) (s : State) : (r.apply s).wordsAre r.words := by
  intro i hi
  have hread := Memory.read_writeList_inside s.wb 0 i r.words hi
  rwa [Nat.zero_add] at hread

/-- Settles O35: FB fits the response, and PARSE records the report of `parseFrame_responseFrame`. -/
theorem parsedResponseGivesBackTheWords : Obligations.ParsedResponseGivesBackTheWords := by
  intro s words hlen hfc hframe
  have hfits : (responseFrame s.opSlave s.opFc words).length ≤ Config.fbSize := by
    rw [length_responseFrame]
    show _ ≤ 260
    omega
  have hreport := parseFrame_responseFrame s.opSlave s.opFc words hlen hfc
  refine ⟨_, execParse_of_holdsFrame hfits hframe, ?_⟩
  rw [hreport]
  refine ⟨rfl, ?_, ParseReport.wordsAre_apply _ s, rfl, fun k hk => ?_⟩
  · show (BitVec.ofNat 8 words.length).toNat = words.length
    rw [BitVec.toNat_ofNat]
    omega
  · exact Memory.read_writeList_above s.wb (Nat.le_refl words.length) k hk

/-- A report of OK is on a frame of the expected slave and function, of the length its byte count asks for, that sums to 0
(R150, R156). -/
theorem genuine_of_parseFrame_ok {slave fc : Byte} {raw : List Byte} (hok : (parseFrame slave fc raw).status = .ok) :
    byteAt raw 0 = slave ∧ byteAt raw 1 = fc ∧ (parseFrame slave fc raw).resBc = some (byteAt raw 2) ∧
      raw.length = 5 + (byteAt raw 2).toNat ∧ crc16 raw = 0 := by
  obtain ⟨-, h⟩ | ⟨-, -, h⟩ | ⟨-, -, -, h⟩ | ⟨-, -, -, -, h⟩ | ⟨-, hslave, -, hcode, h⟩ := parseFrame_cases slave fc raw
  · simp [h] at hok
  · simp [h] at hok
  · obtain ⟨-, e⟩ | ⟨-, c, -, ⟨-, e⟩ | ⟨-, e⟩⟩ := parseException_cases raw <;> simp [h, e] at hok
  · simp [h] at hok
  · obtain ⟨-, e⟩ | ⟨-, e⟩ | ⟨hlen, c, rfl, ⟨-, e⟩ | ⟨-, -, e⟩ | ⟨hmatch, -, e⟩⟩ := parseSuccess_cases raw
    · simp [h, e] at hok
    · simp [h, e] at hok
    · simp [h, e] at hok
    · simp [h, e] at hok
    · exact ⟨hslave, hcode, by rw [h, e], hlen, (trailerMatches_iff_sum (by omega)).1 hmatch⟩

/-- A report of DeviceException is on a frame of five bytes, of the expected slave and the exception code of the expected
function, that sums to 0 (R153). -/
theorem genuine_of_parseFrame_deviceException {slave fc : Byte} {raw : List Byte}
    (hexc : (parseFrame slave fc raw).status = .deviceException) :
    byteAt raw 0 = slave ∧ byteAt raw 1 = exceptionCodeOf fc ∧ (parseFrame slave fc raw).excCode = some (byteAt raw 2) ∧
      raw.length = 5 ∧ crc16 raw = 0 := by
  obtain ⟨-, h⟩ | ⟨-, -, h⟩ | ⟨-, hslave, hcode, h⟩ | ⟨-, -, -, -, h⟩ | ⟨-, -, -, -, h⟩ := parseFrame_cases slave fc raw
  · simp [h] at hexc
  · simp [h] at hexc
  · obtain ⟨-, e⟩ | ⟨hlen, c, rfl, ⟨hmatch, e⟩ | ⟨-, e⟩⟩ := parseException_cases raw
    · simp [h, e] at hexc
    · exact ⟨hslave, hcode, by rw [h, e], hlen, (trailerMatches_iff_sum hlen).1 hmatch⟩
    · simp [h, e] at hexc
  · simp [h] at hexc
  · obtain ⟨-, e⟩ | ⟨-, e⟩ | ⟨-, c, -, ⟨-, e⟩ | ⟨-, -, e⟩ | ⟨-, -, e⟩⟩ := parseSuccess_cases raw <;>
      simp [h, e] at hexc

/-- DeviceException is the only outcome with the code 0x08 (R80). -/
theorem Status.code_eq_deviceException_iff (st : Status) : st.code = 0x08 ↔ st = .deviceException := by
  cases st <;> decide

/-- Settles O36: the frame is what PARSE read, and it is genuine by the report's status. -/
theorem parseAcceptsOnlyGenuineFrames : Obligations.ParseAcceptsOnlyGenuineFrames := by
  intro s t hexec
  obtain ⟨-, rfl⟩ | ⟨-, raw, hlen, hframe, rfl⟩ := execParse_next hexec
  · exact ⟨fun h => absurd ((Status.code_eq_zero_iff .invalidArgument).1 h) (by decide),
      fun h => absurd ((Status.code_eq_deviceException_iff .invalidArgument).1 h) (by decide)⟩
  · refine ⟨fun hok => ?_, fun hexc => ?_⟩
    · obtain ⟨hslave, hcode, hbc, hcount, hsum⟩ := genuine_of_parseFrame_ok ((Status.code_eq_zero_iff _).1 hok)
      have ht : ((parseFrame s.opSlave s.opFc raw).apply s).resBc = byteAt raw 2 := by
        simp [ParseReport.apply, hbc]
      refine ⟨raw, ⟨hlen.symm, hframe⟩, ?_, ?_, ?_, ht ▸ hcount, hsum⟩
      · rw [getElem?_eq_byteAt (by omega), hslave]
      · rw [getElem?_eq_byteAt (by omega), hcode]
      · rw [getElem?_eq_byteAt (by omega), ht]
    · obtain ⟨hslave, hcode, hcause, hcount, hsum⟩ :=
        genuine_of_parseFrame_deviceException ((Status.code_eq_deviceException_iff _).1 hexc)
      have ht : ((parseFrame s.opSlave s.opFc raw).apply s).excCode = byteAt raw 2 := by
        simp [ParseReport.apply, hcause]
      refine ⟨raw, ⟨hlen.symm, hframe⟩, ?_, ?_, ?_, hcount, hsum⟩
      · rw [getElem?_eq_byteAt (by omega), hslave]
      · rw [getElem?_eq_byteAt (by omega), hcode]; rfl
      · rw [getElem?_eq_byteAt (by omega), ht]

end Sys2Proof.Machine
end

section
/-! ### Commands and their bytes (R71, R72, R88) -/

namespace Sys2Proof.Machine

/-- Every command's bytes decode to it, whatever follows them. -/
theorem decode_encode_append (i : Instr) (rest : List Byte) : decode (encode i ++ rest) = .ok (i, rest) := by
  cases i with
  | crcInit => exact Laws.RoundTrip.crcInit.2 rest
  | crcUpdate => exact Laws.RoundTrip.crcUpdate.2 rest
  | crcCompute => exact Laws.RoundTrip.crcCompute.2 rest
  | crcAppend => exact Laws.RoundTrip.crcAppend.2 rest
  | crcValidate => exact Laws.RoundTrip.crcValidate.2 rest
  | buildRead => exact Laws.RoundTrip.buildRead.2 rest
  | parse => exact Laws.RoundTrip.parse.2 rest
  | decode => exact Laws.RoundTrip.decode.2 rest

/-- Bytes that decode begin with the command's code, and the rest is handed back. -/
theorem eq_encode_append_of_decode {bytes rest : List Byte} {i : Instr} (h : decode bytes = .ok (i, rest)) :
    bytes = encode i ++ rest := by
  cases bytes with
  | nil => simp [decode] at h
  | cons code tail =>
    cases hcode : decodeCode code with
    | none => simp [decode, hcode] at h
    | some j =>
      simp only [decode, hcode, Except.ok.injEq, Prod.mk.injEq] at h
      obtain ⟨rfl, rfl⟩ := h
      rw [eq_code_of_decodeCode hcode]
      rfl

/-- Settles O2: `decode_encode_append` and its converse. -/
theorem decodingIsExactlyTheInverseOfEncoding : Obligations.DecodingIsExactlyTheInverseOfEncoding := by
  intro bytes rest i
  refine ⟨eq_encode_append_of_decode, ?_⟩
  rintro rfl
  exact decode_encode_append i rest

/-- Settles O1: each code of the table is the encoding of its command. -/
theorem commandCodesDecodeAsTabled : Obligations.CommandCodesDecodeAsTabled :=
  ⟨decode_encode_append .crcInit [], decode_encode_append .crcUpdate [], decode_encode_append .crcCompute [],
    decode_encode_append .crcAppend [], decode_encode_append .crcValidate [], decode_encode_append .buildRead [],
    decode_encode_append .parse [], decode_encode_append .decode []⟩

/-- Every command's code, as a value on the bus, is one of the table's (R71). -/
theorem code_mem_table (i : Instr) :
    (i.code.setWidth 32 : DWord).toNat ∈ [0x01, 0x02, 0x03, 0x04, 0x05, 0x10, 0x20, 0x30] := by
  cases i <;> decide

/-- Settles O5: if the code were a command's, the value written would be in the table. -/
theorem illegalCommandWritesOnlyStatus : Obligations.IllegalCommandWritesOnlyStatus := by
  intro s v rest hp hfits hillegal
  rw [step_of_writeCmd hp hfits]
  obtain ⟨i, hcode, -⟩ | ⟨-, hissue⟩ := issue_cases (v.setWidth 8) { s with pending := rest }
  · have hv := eq_code_of_writeCmd (writeRefusal_cmd_of_fits hfits) hcode
    exact absurd (hv ▸ code_mem_table i) hillegal
  · exact hissue

end Sys2Proof.Machine
end

section
/-! ### The streaming law (R102–R104) -/

namespace Sys2Proof.Machine

open Sys2Proof.Slice0

variable {s : State} {rest : List Input}

theorem step_of_crcInit (hp : s.pending = .access (.wr .cmd 0x01) :: rest) :
    step s = .next { s with pending := rest, acc := Config.crcInit, status := 0x00 } :=
  stepExecutesTheIssuedCommand s 0x01 .crcInit rest hp (by decide) rfl

theorem step_of_crcUpdate (hp : s.pending = .access (.wr .cmd 0x02) :: rest) :
    step s = .next { s with pending := rest, acc := crcStep s.acc s.opData, status := 0x00 } :=
  stepExecutesTheIssuedCommand s 0x02 .crcUpdate rest hp (by decide) rfl

theorem step_of_writeOpData {b : Byte} (hp : s.pending = .access (.wr .opData (b.setWidth 32)) :: rest) :
    step s = .next { s with pending := rest, opData := b } :=
  (registerWritesStoreTheValue s rest).1 b hp

/-- The accesses that stream one byte: a write of OP_DATA, then CRC_UPDATE (R104). -/
def byteInputs (b : Byte) : List Input := [.access (.wr .opData (b.setWidth 32)), .access (.wr .cmd 0x02)]

/-- Two steps stream a byte: it is folded into ACC and stays in OP_DATA. -/
theorem run_byteInputs {b : Byte} (k : Nat) (hp : s.pending = byteInputs b ++ rest) :
    Sys2Proof.core.run (k + 2) s = Sys2Proof.core.run k
      { s with pending := rest, acc := crcStep s.acc b, opData := b, status := 0x00 } := by
  rw [core_run_succ (step_of_writeOpData hp)]
  exact core_run_succ (step_of_crcUpdate rfl)

/-- Streaming a sequence folds its bytes into ACC, in order; OP_DATA keeps the last one (R103, R104). -/
theorem run_streamedBytes (bytes : List Byte) (hok : s.status = 0x00) (hp : s.pending = bytes.flatMap byteInputs ++ rest) :
    Sys2Proof.core.run (2 * bytes.length) s = .next { s with
      pending := rest
      acc := bytes.foldl crcStep s.acc
      opData := bytes.getLastD s.opData
      status := 0x00 } := by
  induction bytes generalizing s with
  | nil =>
    obtain rfl : s.pending = rest := hp
    rw [← hok]
    rfl
  | cons b bs ih =>
    rw [List.flatMap_cons, List.append_assoc] at hp
    rw [List.length_cons, Nat.mul_succ, run_byteInputs _ hp, ih rfl rfl]
    cases bs <;> rfl

/-- Settles O16: CRC_INIT starts the checksum, and the streamed bytes are folded into it. -/
theorem streamedBytesLeaveTheirChecksum : Obligations.StreamedBytesLeaveTheirChecksum := by
  intro s bytes rest hp
  rw [Nat.add_comm, core_run_succ (step_of_crcInit hp)]
  exact run_streamedBytes bytes rfl rfl

end Sys2Proof.Machine
end

section
/-! ### The fields of DEF as numbers (R76) -/

namespace Sys2Proof.Machine

open Sys2Proof.Slice0

section Fields

variable (d : Word)

theorem toNat_extractLsb'_eq_defField (lo n : Nat) : (d.extractLsb' lo n).toNat = defField d lo n := by
  rw [BitVec.extractLsb'_toNat, Nat.shiftRight_eq_div_pow, defField]

theorem toNat_getLsbD_eq_defField (i : Nat) : (d.getLsbD i).toNat = defField d i 1 :=
  Nat.toNat_testBit d.toNat i

theorem toNat_defKind : (defKind d).toNat = defField d 0 3 := toNat_extractLsb'_eq_defField d 0 3
theorem toNat_defBsel : (defBsel d).toNat = defField d 3 1 := toNat_getLsbD_eq_defField d 3
theorem toNat_defScale : (defScale d).toNat = defField d 4 2 := toNat_extractLsb'_eq_defField d 4 2
theorem toNat_defRsvd0 : (defRsvd0 d).toNat = defField d 6 2 := toNat_extractLsb'_eq_defField d 6 2
theorem toNat_defWc : (defWc d).toNat = defField d 8 7 := toNat_extractLsb'_eq_defField d 8 7
theorem toNat_defRsvd1 : (defRsvd1 d).toNat = defField d 15 1 := toNat_getLsbD_eq_defField d 15

end Fields

theorem toNat_bool_inj {a b : Bool} : a.toNat = b.toNat ↔ a = b := by
  cases a <;> cases b <;> decide

/-- Settles O37: as numbers, the fields are the digits of the word at their places. -/
theorem definitionFieldsRoundTrip : Obligations.DefinitionFieldsRoundTrip := by
  refine ⟨fun kind bsel scale rsvd0 wc rsvd1 d hd => ?_, fun d => ?_⟩
  · have hkind := kind.isLt
    have hbsel := bsel.toNat_lt
    have hscale := scale.isLt
    have hrsvd0 := rsvd0.isLt
    have hwc := wc.isLt
    have hrsvd1 := rsvd1.toNat_lt
    simp only [← BitVec.toNat_inj, ← toNat_bool_inj, toNat_defKind, toNat_defBsel, toNat_defScale, toNat_defRsvd0,
      toNat_defWc, toNat_defRsvd1, defField, hd]
    omega
  · have := d.isLt
    simp only [toNat_defKind, toNat_defBsel, toNat_defScale, toNat_defRsvd0, toNat_defWc, toNat_defRsvd1, defField]
    omega

end Sys2Proof.Machine
end

section
/-! ### What a command may write, and the statuses it may leave (R73, R80, R211, R214) -/

namespace Sys2Proof.Machine

open Sys2Proof.Slice0

/-- Settles O49: each way a command can end differs from the state before in its own row of the table. -/
theorem commandsWriteOnlyWhatTheyMay : Obligations.CommandsWriteOnlyWhatTheyMay := by
  intro i s t h
  cases i with
  | crcInit => obtain rfl := finish_eq_next_iff.1 h; exact rfl
  | crcUpdate => obtain rfl := finish_eq_next_iff.1 h; exact rfl
  | crcCompute => obtain ⟨-, rfl⟩ | ⟨-, raw, -, -, rfl⟩ := execCrcCompute_next h <;> exact rfl
  | crcAppend =>
    obtain ⟨-, rfl⟩ | ⟨-, raw, -, -, rfl⟩ := execCrcAppend_next h
    · exact ⟨rfl, fun _ _ _ => rfl⟩
    · refine ⟨rfl, fun a hne hne' => Memory.read_writeList_outside s.fb s.frameLen a _ ?_⟩
      have hlen : (crcTrailer (crc16 raw)).length = 2 := rfl
      rw [hlen, State.frameLen]
      omega
  | crcValidate =>
    obtain ⟨-, rfl⟩ | ⟨-, rfl⟩ | ⟨-, -, raw, -, -, rfl⟩ := execCrcValidate_next h <;> exact rfl
  | buildRead =>
    obtain ⟨-, rfl⟩ | ⟨-, rfl⟩ := execBuildRead_next h
    · exact ⟨rfl, fun _ _ => rfl⟩
    · exact ⟨rfl, Memory.read_writeList_above s.fb (Nat.le_of_eq rfl)⟩
  | parse =>
    obtain ⟨-, rfl⟩ | ⟨-, raw, -, -, rfl⟩ := execParse_next h
    · exact ⟨rfl, fun _ _ => rfl⟩
    · exact ⟨rfl, Memory.read_writeList_above s.wb (parseFrame_words s.opSlave s.opFc raw).1⟩
  | decode =>
    obtain ⟨-, rfl⟩ | ⟨k, st, -, -, rfl⟩ | ⟨k, words, -, hpass, hlen, -, rfl⟩ := execDecode_next h
    · exact ⟨rfl, fun _ _ => rfl⟩
    · exact ⟨rfl, fun _ _ => rfl⟩
    · obtain ⟨-, -, -, -, hwc, -, -⟩ := definitionFailure_none hpass
      obtain ⟨htext, -⟩ := decodeKind_bounds (d := s.defReg) k (hlen ▸ hwc)
      exact ⟨rfl, Memory.read_writeList_above s.tb htext⟩

/-- The outcomes PARSE's checks can report (R150–R157). -/
theorem parseFrame_status_mem (slave fc : Byte) (raw : List Byte) :
    (parseFrame slave fc raw).status.code ∈ statusesOf .parse := by
  obtain ⟨-, h⟩ | ⟨-, -, h⟩ | ⟨-, -, -, h⟩ | ⟨-, -, -, -, h⟩ | ⟨-, -, -, -, h⟩ := parseFrame_cases slave fc raw
  · simp [h, Status.code, statusesOf]
  · simp [h, Status.code, statusesOf]
  · obtain ⟨-, e⟩ | ⟨-, c, -, ⟨-, e⟩ | ⟨-, e⟩⟩ := parseException_cases raw <;> simp [h, e, Status.code, statusesOf]
  · simp [h, Status.code, statusesOf]
  · obtain ⟨-, e⟩ | ⟨-, e⟩ | ⟨-, c, -, ⟨-, e⟩ | ⟨-, -, e⟩ | ⟨-, -, e⟩⟩ := parseSuccess_cases raw <;>
      simp [h, e, Status.code, statusesOf]

/-- The failures of a definition's checks (R181–R183). -/
theorem definitionFailure_status_mem {d : Word} {wcnt : Byte} {k : Kind} {st : Status}
    (h : definitionFailure d wcnt k = some st) : st.code ∈ statusesOf .decode := by
  unfold definitionFailure at h
  split_ifs at h
  all_goals
    obtain rfl := Option.some.inj h
    decide

/-- Every completed command leaves a status of its row (R80, R211). -/
theorem exec_status_mem {i : Instr} {s t : State} (h : exec i s = .next t) : t.status ∈ statusesOf i := by
  cases i with
  | crcInit => obtain rfl := finish_eq_next_iff.1 h; exact List.mem_cons_self
  | crcUpdate => obtain rfl := finish_eq_next_iff.1 h; exact List.mem_cons_self
  | crcCompute =>
    obtain ⟨-, rfl⟩ | ⟨-, raw, -, -, rfl⟩ := execCrcCompute_next h <;> simp [Status.code, statusesOf]
  | crcAppend =>
    obtain ⟨-, rfl⟩ | ⟨-, raw, -, -, rfl⟩ := execCrcAppend_next h <;> simp [Status.code, statusesOf]
  | crcValidate =>
    obtain ⟨-, rfl⟩ | ⟨-, rfl⟩ | ⟨-, -, raw, -, -, rfl⟩ := execCrcValidate_next h <;> simp [Status.code, statusesOf]
  | buildRead =>
    obtain ⟨-, rfl⟩ | ⟨-, rfl⟩ := execBuildRead_next h <;> simp [Status.code, statusesOf]
  | parse =>
    obtain ⟨-, rfl⟩ | ⟨-, raw, -, -, rfl⟩ := execParse_next h
    · simp [Status.code, statusesOf]
    · exact parseFrame_status_mem s.opSlave s.opFc raw
  | decode =>
    obtain ⟨-, rfl⟩ | ⟨k, st, -, hfails, rfl⟩ | ⟨k, words, -, -, -, -, rfl⟩ := execDecode_next h
    · simp [Status.code, statusesOf]
    · exact definitionFailure_status_mem hfails
    · exact List.mem_cons_self

/-- What is written to CMD never leaves TransportTimeout, whether it is a command or not (R72, R214). -/
theorem issue_status_ne {code : Byte} {s t : State} (h : issue code s = .next t) : t.status ≠ 0x02 := by
  obtain ⟨i, -, hexec⟩ | ⟨-, hillegal⟩ := issue_cases code s
  · have hnone : 0x02 ∉ statusesOf i := by cases i <;> decide
    intro htimeout
    exact hnone (htimeout ▸ exec_status_mem (hexec ▸ h))
  · obtain rfl := Host.Outcome.next.inj (hillegal ▸ h)
    exact (by decide : Status.illegalCommand.code ≠ 0x02)

/-- No host write of a register reaches STATUS (R22). -/
@[simp] theorem storeReg_status (s : State) (v : DWord) (r : Reg) : (storeReg s v r).status = s.status := by
  cases r <;> rfl

/-- A host access keeps STATUS unless it issues a command (R27). -/
theorem hostAccess_status {a : Access} {s t : State} (h : hostAccess a s = .next t) :
    t.status = s.status ∨ t.status ≠ 0x02 := by
  obtain ⟨v, rfl⟩ | ⟨r, v, -, -, -, rfl⟩ | ⟨v, -, -, hissue⟩ | ⟨i, v, -, -, rfl⟩ | ⟨i, v, -, -, rfl⟩ := hostAccess_cases h
  · exact .inl rfl
  · exact .inl (storeReg_status s v r)
  · exact .inr (issue_status_ne hissue)
  · exact .inl rfl
  · exact .inl rfl

/-- Settles O51: commands leave what their row says, and an idle step, a reset and the other accesses never set 0x02. -/
theorem statusIsOneTabledForTheCommand : Obligations.StatusIsOneTabledForTheCommand := by
  refine ⟨fun _ _ _ h => exec_status_mem h, fun s t hstep htimeout => ?_⟩
  obtain ⟨-, rfl⟩ | ⟨rest, -, rfl⟩ | ⟨a, rest, -, ha⟩ := step_cases hstep
  · exact htimeout
  · exact absurd (show State.reset.status = 0x02 from htimeout) (by decide)
  · obtain hsame | hne := hostAccess_status ha
    · exact hsame.symm.trans htimeout
    · exact absurd htimeout hne

end Sys2Proof.Machine
end

section
/-! ### What a command writes depends only on what it reads (R73) -/

namespace Sys2Proof.Machine

open Sys2Proof.Slice0

/-- What a command writes, apart from the state it writes it to: the status, a value for each register it writes, and a run of
elements for each buffer (R73, "May write"). -/
structure Effect where
  status   : Status
  wcnt     : Option Byte := none
  acc      : Option Word := none
  resCrc   : Option Word := none
  resValid : Option Bool := none
  excCode  : Option Byte := none
  resBc    : Option Byte := none
  resVal   : Option DWord := none
  resScale : Option Byte := none
  resTlen  : Option Byte := none
  fbStart  : Nat := 0
  fb       : List Byte := []
  wb       : List Word := []
  tb       : List Byte := []

/-- The state after an effect. -/
def Effect.apply (e : Effect) (s : State) : State :=
  State.setStatus { s with
    wcnt := e.wcnt.getD s.wcnt
    acc := e.acc.getD s.acc
    resCrc := e.resCrc.getD s.resCrc
    resValid := e.resValid.getD s.resValid
    excCode := e.excCode.getD s.excCode
    resBc := e.resBc.getD s.resBc
    resVal := e.resVal.getD s.resVal
    resScale := e.resScale.getD s.resScale
    resTlen := e.resTlen.getD s.resTlen
    fb := s.fb.writeList e.fbStart e.fb
    wb := s.wb.writeList 0 e.wb
    tb := s.tb.writeList 0 e.tb } e.status

section SameEffect

theorem sameEffect_unchanged {α : Type} (a a' : α) : sameEffect a a a' a' := .inl ⟨rfl, rfl⟩

theorem sameEffect_getD {α : Type} (written : Option α) (a a' : α) :
    sameEffect a (written.getD a) a' (written.getD a') := by
  cases written with
  | none => exact sameEffect_unchanged a a'
  | some v => exact .inr rfl

theorem sameEffect_writeList {w : Nat} (m m' : Memory w) (start : Nat) (vs : List (BitVec w)) (a : Nat) :
    sameEffect (m.read a) ((m.writeList start vs).read a) (m'.read a) ((m'.writeList start vs).read a) := by
  rw [Memory.read_writeList, Memory.read_writeList]
  split
  · exact .inr rfl
  · exact sameEffect_unchanged _ _

end SameEffect

/-- One effect on two states writes the same to both. -/
theorem Effect.sameEffects_apply (e : Effect) (s s' : State) : sameEffects s (e.apply s) s' (e.apply s') :=
  ⟨rfl, sameEffect_unchanged _ _, sameEffect_unchanged _ _, sameEffect_unchanged _ _, sameEffect_unchanged _ _,
    sameEffect_unchanged _ _, sameEffect_unchanged _ _, sameEffect_unchanged _ _, sameEffect_getD e.wcnt _ _,
    sameEffect_getD e.acc _ _, sameEffect_getD e.resCrc _ _, sameEffect_getD e.resValid _ _,
    sameEffect_getD e.excCode _ _, sameEffect_getD e.resBc _ _, sameEffect_getD e.resVal _ _,
    sameEffect_getD e.resScale _ _, sameEffect_getD e.resTlen _ _, sameEffect_writeList _ _ _ _,
    sameEffect_writeList _ _ _ _, sameEffect_writeList _ _ _ _⟩

/-- Two results, each from its own state: if the first completes, both complete with one effect. -/
def WriteAlike (s s' : State) (r r' : Result) : Prop :=
  ∀ t, r = .next t → ∃ e : Effect, t = e.apply s ∧ r' = .next (e.apply s')

section WriteAlike

variable {s s' : State}

theorem writeAlike_next {e e' : Effect} (he : e = e') : WriteAlike s s' (.next (e.apply s)) (.next (e'.apply s')) :=
  fun _ h => ⟨e, (Host.Outcome.next.inj h).symm, he ▸ rfl⟩

/-- A failure that writes STATUS alone. -/
theorem writeAlike_fails (st : Status) : WriteAlike s s' (finish st s) (finish st s') :=
  writeAlike_next (e := { status := st }) rfl

theorem writeAlike_ite {c c' : Prop} [Decidable c] [Decidable c'] {r₁ r₂ r₁' r₂' : Result} (hc : c ↔ c')
    (h₁ : WriteAlike s s' r₁ r₁') (h₂ : WriteAlike s s' r₂ r₂') :
    WriteAlike s s' (if c then r₁ else r₂) (if c' then r₁' else r₂') := by
  by_cases h : c
  · rw [if_pos h, if_pos (hc.1 h)]
    exact h₁
  · rw [if_neg h, if_neg (mt hc.2 h)]
    exact h₂

/-- Remainders that write alike do so behind a read of bytes that the two states share. -/
theorem writeAlike_withFrame {n : Nat} {go go' : List Byte → Result} (hread : ∀ k, k < n → s.fb.read k = s'.fb.read k)
    (hgo : ∀ raw, WriteAlike s s' (go raw) (go' raw)) : WriteAlike s s' (withFrame n s go) (withFrame n s' go') := by
  rw [withFrame, withFrame, ← Memory.readRange_congr fun j _ hj => hread j (by omega)]
  cases s.fb.readRange 0 n with
  | ok raw => exact hgo raw
  | error i => simp [WriteAlike, unwritten]

/-- The same for words. -/
theorem writeAlike_withWords {n : Nat} {go go' : List Word → Result} (hread : ∀ k, k < n → s.wb.read k = s'.wb.read k)
    (hgo : ∀ words, WriteAlike s s' (go words) (go' words)) :
    WriteAlike s s' (withWords n s go) (withWords n s' go') := by
  rw [withWords, withWords, ← Memory.readRange_congr fun j _ hj => hread j (by omega)]
  cases s.wb.readRange 0 n with
  | ok words => exact hgo words
  | error i => simp [WriteAlike, unwritten]

theorem frameLen_eq (h : s.opLen = s'.opLen) : s'.frameLen = s.frameLen := congrArg BitVec.toNat h.symm

theorem writeAlike_crcUpdate (h : sameReads .crcUpdate s s') : WriteAlike s s' (execCrcUpdate s) (execCrcUpdate s') := by
  obtain ⟨hacc, hdata⟩ := h
  exact writeAlike_next
    (e := { status := .ok, acc := some (crcStep s.acc s.opData) })
    (e' := { status := .ok, acc := some (crcStep s'.acc s'.opData) }) (by rw [hacc, hdata])

theorem writeAlike_crcCompute (h : sameReads .crcCompute s s') : WriteAlike s s' (execCrcCompute s) (execCrcCompute s') := by
  obtain ⟨hlen, hread⟩ := h
  rw [execCrcCompute, execCrcCompute, frameLen_eq hlen]
  refine writeAlike_ite Iff.rfl (writeAlike_fails _) (writeAlike_withFrame hread fun raw => ?_)
  exact writeAlike_next (e := { status := .ok, resCrc := some (crc16 raw) }) rfl

theorem writeAlike_crcAppend (h : sameReads .crcAppend s s') : WriteAlike s s' (execCrcAppend s) (execCrcAppend s') := by
  obtain ⟨hlen, hread⟩ := h
  rw [execCrcAppend, execCrcAppend, frameLen_eq hlen]
  refine writeAlike_ite Iff.rfl (writeAlike_fails _) (writeAlike_withFrame hread fun raw => ?_)
  exact writeAlike_next (e := {
    status := .ok, fbStart := s.frameLen, fb := crcTrailer (crc16 raw), resCrc := some (crc16 raw) }) rfl

theorem writeAlike_crcValidate (h : sameReads .crcValidate s s') :
    WriteAlike s s' (execCrcValidate s) (execCrcValidate s') := by
  obtain ⟨hlen, hread⟩ := h
  rw [execCrcValidate, execCrcValidate, frameLen_eq hlen]
  refine writeAlike_ite Iff.rfl (writeAlike_fails _) (writeAlike_ite Iff.rfl ?_ (writeAlike_withFrame hread fun raw => ?_))
  · exact writeAlike_next (e := { status := .ok, resValid := some false }) rfl
  · exact writeAlike_next (e := {
      status := .ok
      resCrc := some (crc16 (raw.take (s.frameLen - 2)))
      resValid := some (trailerMatches (crc16 (raw.take (s.frameLen - 2))) raw (s.frameLen - 2)) }) rfl

/-- A request's bytes are stored alike in every state (R131). -/
theorem writeAlike_storeRequest (body : List Byte) :
    WriteAlike s s'
      (finish .ok { s with fb := s.fb.writeList 0 (body ++ crcTrailer (crc16 body)), resCrc := crc16 body })
      (finish .ok { s' with fb := s'.fb.writeList 0 (body ++ crcTrailer (crc16 body)), resCrc := crc16 body }) :=
  writeAlike_next (e := { status := .ok, fb := body ++ crcTrailer (crc16 body), resCrc := some (crc16 body) }) rfl

theorem writeAlike_buildRead (h : sameReads .buildRead s s') : WriteAlike s s' (execBuildRead s) (execBuildRead s') := by
  obtain ⟨hslave, haddr, hcount⟩ := h
  have hbody : requestBody s'.opSlave s'.opAddr s'.opCount = requestBody s.opSlave s.opAddr s.opCount := by
    rw [hslave, haddr, hcount]
  rw [execBuildRead, execBuildRead, hbody]
  exact writeAlike_ite (by rw [hcount]) (writeAlike_fails _) (writeAlike_storeRequest _)

/-- What PARSE writes for a report (R157, R158). -/
def ParseReport.effect (r : ParseReport) : Effect where
  status := r.status
  excCode := r.excCode
  resBc := r.resBc
  resCrc := r.resCrc
  wb := r.words
  wcnt := some (BitVec.ofNat 8 r.words.length)

theorem writeAlike_parse (h : sameReads .parse s s') : WriteAlike s s' (execParse s) (execParse s') := by
  obtain ⟨hlen, hslave, hfc, hread⟩ := h
  rw [execParse, execParse, frameLen_eq hlen]
  refine writeAlike_ite Iff.rfl ?_ (writeAlike_withFrame hread fun raw => ?_)
  · exact writeAlike_next (e := { status := .invalidArgument, wcnt := some 0 }) rfl
  · exact writeAlike_next
      (e := (parseFrame s.opSlave s.opFc raw).effect)
      (e' := (parseFrame s'.opSlave s'.opFc raw).effect) (by rw [hslave, hfc])

/-- What DECODE writes for a decoding (R180). -/
def Decoded.effect (v : Decoded) : Effect where
  status := .ok
  resVal := some v.val
  resScale := some v.scale
  resTlen := some (BitVec.ofNat 8 v.text.length)
  tb := v.text

theorem writeAlike_decode (h : sameReads .decode s s') : WriteAlike s s' (execDecode s) (execDecode s') := by
  obtain ⟨hdef, hwcnt, hread⟩ := h
  rw [← toNat_defWc] at hread
  rw [execDecode, execDecode, ← hdef, ← hwcnt]
  cases kindOf (defKind s.defReg) with
  | none => exact writeAlike_fails _
  | some k =>
    cases hf : definitionFailure s.defReg s.wcnt k with
    | some st => simp only [hf]; exact writeAlike_fails st
    | none =>
      simp only [hf]
      exact writeAlike_withWords hread fun words =>
        writeAlike_next (e := (decodeKind s.defReg words k).effect) rfl

/-- Every command writes alike in states that agree on what it reads. -/
theorem writeAlike_exec {i : Instr} (h : sameReads i s s') : WriteAlike s s' (exec i s) (exec i s') := by
  cases i with
  | crcInit => exact writeAlike_next (e := { status := .ok, acc := some Config.crcInit }) rfl
  | crcUpdate => exact writeAlike_crcUpdate h
  | crcCompute => exact writeAlike_crcCompute h
  | crcAppend => exact writeAlike_crcAppend h
  | crcValidate => exact writeAlike_crcValidate h
  | buildRead => exact writeAlike_buildRead h
  | parse => exact writeAlike_parse h
  | decode => exact writeAlike_decode h

end WriteAlike

/-- Settles O50: both executions complete with one effect, and one effect writes the same to both states. -/
theorem commandsDependOnlyOnWhatTheyRead : Obligations.CommandsDependOnlyOnWhatTheyRead := by
  intro i s s' t hreads hexec
  obtain ⟨e, rfl, hexec'⟩ := writeAlike_exec hreads t hexec
  exact ⟨e.apply s', hexec', e.sameEffects_apply s s'⟩

end Sys2Proof.Machine
end

section
/-! ### The byte step as a loop on numbers and as a bijection, and the checksum it is folded into (R100, R101, R110) -/

namespace Sys2Proof.Machine

open Sys2Proof.Slice0

/-- One shift of a word is one iteration of R100's loop on its number. -/
theorem toNat_crcShift (a : Word) : (crcShift a).toNat = natShift a.toNat := by
  have hodd : a.getLsbD 0 = true ↔ a.toNat % 2 = 1 := by
    rw [← BitVec.testBit_toNat, Nat.testBit_zero, decide_eq_true_iff]
  have hhalf : (a >>> 1).toNat = a.toNat / 2 := by rw [BitVec.toNat_ushiftRight, Nat.shiftRight_one]
  rw [crcShift, natShift]
  by_cases h : a.toNat % 2 = 1
  · rw [if_pos (hodd.2 h), if_pos h, BitVec.toNat_xor, hhalf]
    rfl
  · rw [if_neg (mt hodd.1 h), if_neg h, hhalf]

theorem toNat_crcShifts (n : Nat) (a : Word) : (crcShifts n a).toNat = natShift^[n] a.toNat := by
  induction n generalizing a with
  | zero => rfl
  | succ n ih => rw [crcShifts, ih, toNat_crcShift, Function.iterate_succ_apply]

/-- Settles O13: the eight shifts are the loop, started from the accumulator with the byte in. -/
theorem byteStepIsTheHalvingLoop : Obligations.ByteStepIsTheHalvingLoop := by
  intro acc b
  have hb : (b.setWidth 16 : Word).toNat = b.toNat := BitVec.toNat_setWidth_of_le (by decide)
  rw [crcStep, toNat_crcShifts, BitVec.toNat_xor, hb]

/-- Settles O14: the checksum is a left fold, which the rule's examples run. -/
theorem checksumFoldsTheByteStep : Obligations.ChecksumFoldsTheByteStep := by
  refine ⟨rfl, crc16_snoc, ?_, ?_, ?_, ?_, ?_⟩
  all_goals simp [crc16, crcStep, crcShifts, crcShift]

/-- For each byte, different accumulators stay different through the byte step (R110). -/
theorem crcStep_left_injective (b : Byte) : Function.Injective fun acc : Word => crcStep acc b :=
  fun _ _ h => (BitVec.xor_left_inj _).1 (crcShifts_inj.1 h)

/-- Settles O18: there are finitely many words, so the injective byte step is onto as well. -/
theorem byteStepIsABijection : Obligations.ByteStepIsABijection :=
  fun b => Finite.injective_iff_bijective.1 (crcStep_left_injective b)

/-- For each accumulator, different bytes lead to different ones. -/
theorem crcStep_right_injective (acc : Word) : Function.Injective (crcStep acc) := by
  intro b b' h
  have hword : b.setWidth 16 = b'.setWidth 16 := (BitVec.xor_right_inj _).1 (crcShifts_inj.1 h)
  rw [← BitVec.setWidth_eq b, ← BitVec.setWidth_setWidth_of_le b (show 8 ≤ 16 by decide), hword,
    BitVec.setWidth_setWidth_of_le b' (by decide), BitVec.setWidth_eq]

/-- Different accumulators stay different through any sequence of bytes. -/
theorem foldl_crcStep_injective (bytes : List Byte) : Function.Injective (bytes.foldl crcStep) := by
  induction bytes with
  | nil => exact fun _ _ h => h
  | cons b bs ih => exact ih.comp (crcStep_left_injective b)

/-- The checksum of a sequence is that of its front, folded through what follows. -/
theorem crc16_append_cons (before after : List Byte) (b : Byte) :
    crc16 (before ++ b :: after) = after.foldl crcStep (crcStep (crc16 before) b) := by
  rw [crc16, List.foldl_append, List.foldl_cons, ← crc16]

/-- Settles O19: the accumulators differ after the differing byte, and so after every byte that follows. -/
theorem singleByteErrorChangesTheChecksum : Obligations.SingleByteErrorChangesTheChecksum := by
  intro before after b b' hne h
  rw [crc16_append_cons, crc16_append_cons] at h
  exact hne (crcStep_right_injective _ (foldl_crcStep_injective after h))

end Sys2Proof.Machine
end

section
/-! ### The Checksum Engine's commands on a written frame, and the round trip of an appended checksum (R102–R109) -/

namespace Sys2Proof.Machine

open Sys2Proof.Slice0

/-- Settles O15: neither command reads a buffer or checks an operand. -/
theorem streamingCommandsUpdateTheAccumulator : Obligations.StreamingCommandsUpdateTheAccumulator :=
  ⟨rfl, rfl, fun _ => ⟨rfl, rfl⟩⟩

section Commands

variable {s : State}

/-- A command that bounds OP_LEN and then reads FB runs its remainder on a frame within the bound. -/
theorem boundedFrame_of_holdsFrame {limit : Nat} {raw : List Byte} {fails : Result} {go : List Byte → Result}
    (hlen : raw.length ≤ limit) (h : s.holdsFrame raw) :
    (if s.frameLen > limit then fails else withFrame s.frameLen s go) = go raw := by
  obtain ⟨hn, hraw⟩ := h
  have hn : s.frameLen = raw.length := hn
  rw [hn, if_neg (Nat.not_lt.2 hlen), withFrame_of_frameIs hraw]

/-- CRC_COMPUTE on a frame FB holds (R105). -/
theorem execCrcCompute_of_holdsFrame {raw : List Byte} (hlen : raw.length ≤ Config.fbSize) (h : s.holdsFrame raw) :
    execCrcCompute s = .next { s with resCrc := crc16 raw, status := 0x00 } :=
  boundedFrame_of_holdsFrame hlen h

/-- CRC_APPEND on a frame FB holds, with room for the trailer (R106). -/
theorem execCrcAppend_of_holdsFrame {raw : List Byte} (hlen : raw.length ≤ Config.fbSize - 2) (h : s.holdsFrame raw) :
    execCrcAppend s = .next { s with
      fb := s.fb.writeList raw.length (crcTrailer (crc16 raw))
      resCrc := crc16 raw
      status := 0x00 } := by
  have hn : s.frameLen = raw.length := h.1
  rw [← hn]
  exact boundedFrame_of_holdsFrame hlen h

/-- The trailer of a frame is its last two bytes (R87). -/
theorem trailerAt_append (body : List Byte) (lo hi : Byte) :
    trailerAt (body ++ [lo, hi]) body.length = joinBytes hi lo := by
  simp [trailerAt, byteAt]

/-- CRC_VALIDATE on a body and a trailer that FB holds (R108). -/
theorem execCrcValidate_of_holdsFrame {body : List Byte} {lo hi : Byte} (hlen : body.length ≤ Config.fbSize - 2)
    (h : s.holdsFrame (body ++ [lo, hi])) :
    execCrcValidate s = .next { s with
      resCrc := crc16 body
      resValid := crc16 body == joinBytes hi lo
      status := 0x00 } := by
  have hframe : (body ++ [lo, hi]).length ≤ Config.fbSize := by
    rw [List.length_append]
    exact Nat.add_le_add_right hlen 2
  have hn : s.frameLen = body.length + 2 := by
    rw [State.frameLen, h.1, List.length_append]
    rfl
  have hshort : ¬ s.frameLen < 2 := by omega
  rw [execCrcValidate, if_neg hshort, boundedFrame_of_holdsFrame hframe h]
  simp only [hn, Nat.add_sub_cancel, List.take_left', trailerMatches, trailerAt_append]
  rfl

end Commands

/-- Settles O21: the two ranges of OP_LEN. -/
theorem computeGivesTheChecksumOfTheBuffer : Obligations.ComputeGivesTheChecksumOfTheBuffer :=
  ⟨rfl, fun _ hlong => if_pos hlong, fun _ _ hlen h => execCrcCompute_of_holdsFrame hlen h⟩

/-- Settles O22: what is stored is a range write of the checksum's two bytes from the frame's end on. -/
theorem appendStoresTheChecksumLowByteFirst : Obligations.AppendStoresTheChecksumLowByteFirst := by
  refine ⟨rfl, fun _ hlong => if_pos hlong, fun s raw hlen h =>
    ⟨_, execCrcAppend_of_holdsFrame hlen h, rfl, ?_, ?_, fun a hlo hhi => ?_⟩⟩
  · rw [← loByte_eq_ofNat]
    exact Memory.read_writeList_inside s.fb raw.length 0 (crcTrailer (crc16 raw)) Nat.zero_lt_two
  · rw [← hiByte_eq_ofNat]
    exact Memory.read_writeList_inside s.fb raw.length 1 (crcTrailer (crc16 raw)) Nat.one_lt_two
  · have hoff : a < raw.length ∨ raw.length + 2 ≤ a := by omega
    exact Memory.read_writeList_outside s.fb raw.length a (crcTrailer (crc16 raw)) hoff

/-- All 16 bits are compared, so two bytes match a word exactly when they make its number (R108). -/
theorem beq_joinBytes_eq_decide (c : Word) (lo hi : Byte) :
    (c == joinBytes hi lo) = decide (c.toNat = lo.toNat + 256 * hi.toNat) := by
  rw [beq_eq_decide, decide_eq_decide, ← BitVec.toNat_inj, toNat_joinBytes, Nat.mul_comm, Nat.add_comm]

/-- Settles O23: the three ranges of OP_LEN. -/
theorem validateComparesTheTrailer : Obligations.ValidateComparesTheTrailer := by
  refine ⟨rfl, fun _ hlong => if_pos hlong, fun s hshort => ?_, fun s body lo hi hlen h => ?_⟩
  · have hshort : s.frameLen < 2 := hshort
    have hfits : ¬ s.frameLen > Config.fbSize := fun hlong => absurd (Nat.lt_trans hlong hshort) (by decide)
    rw [exec, execCrcValidate, if_neg hfits, if_pos hshort]
    rfl
  · rw [← beq_joinBytes_eq_decide]
    exact execCrcValidate_of_holdsFrame hlen h

section RoundTrip

variable {s : State} {raw : List Byte} {rest : List Input}

theorem step_of_crcAppend (hlen : raw.length ≤ Config.fbSize - 2) (h : s.holdsFrame raw)
    (hp : s.pending = .access (.wr .cmd 0x04) :: rest) :
    step s = .next { s with
      pending := rest
      fb := s.fb.writeList raw.length (crcTrailer (crc16 raw))
      resCrc := crc16 raw
      status := 0x00 } :=
  (stepExecutesTheIssuedCommand s 0x04 .crcAppend rest hp (by decide) rfl).trans (execCrcAppend_of_holdsFrame hlen h)

/-- A step that writes a length below 2^16 to OP_LEN stores it (R57). -/
theorem step_of_writeOpLen {n : Nat} (hn : n < 2 ^ 16)
    (hp : s.pending = .access (.wr .opLen (BitVec.ofNat 32 n)) :: rest) :
    step s = .next { s with pending := rest, opLen := BitVec.ofNat 16 n } := by
  obtain ⟨-, -, -, -, -, hopLen, -⟩ := registerWritesStoreTheValue s rest
  refine hopLen (BitVec.ofNat 16 n) ?_
  rw [hp, BitVec.setWidth_ofNat_of_le_of_lt (by decide) hn]

/-- A checksum's own bytes behind its body are valid (R107). -/
theorem step_of_crcValidate_ownTrailer (hlen : raw.length ≤ Config.fbSize - 2)
    (h : s.holdsFrame (raw ++ crcTrailer (crc16 raw))) (hp : s.pending = .access (.wr .cmd 0x05) :: rest) :
    step s = .next { s with pending := rest, resCrc := crc16 raw, resValid := true, status := 0x00 } := by
  have hmatch : (crc16 raw == joinBytes (hiByte (crc16 raw)) (loByte (crc16 raw))) = true := by
    rw [joinBytes_hi_lo, beq_self_eq_true]
  rw [stepExecutesTheIssuedCommand s 0x05 .crcValidate rest hp (by decide) rfl, ← hmatch]
  exact execCrcValidate_of_holdsFrame hlen h

/-- A frame with its checksum written behind it, OP_LEN moved past it, is held whole (R106). -/
theorem holdsFrame_append_writeList {t : State} {tail : List Byte} (h : s.frameIs raw)
    (hfb : t.fb = s.fb.writeList raw.length tail) (hlen : t.opLen.toNat = (raw ++ tail).length) :
    t.holdsFrame (raw ++ tail) :=
  ⟨hlen, fun i hi => hfb ▸ Memory.read_append tail h i hi⟩

end RoundTrip

/-- Settles O24: after CRC_APPEND and the new OP_LEN, FB holds the frame with its own trailer. -/
theorem appendedChecksumAlwaysValidates : Obligations.AppendedChecksumAlwaysValidates := by
  intro s raw rest hlen h hp
  have hlt : raw.length + 2 < 2 ^ 16 := by omega
  have hopLen : (BitVec.ofNat 16 (raw.length + 2)).toNat = (raw ++ crcTrailer (crc16 raw)).length := by
    rw [BitVec.toNat_ofNat, Nat.mod_eq_of_lt hlt, List.length_append]
    rfl
  rw [core_run_succ (step_of_crcAppend hlen h hp), core_run_succ (step_of_writeOpLen hlt rfl),
    core_run_succ (step_of_crcValidate_ownTrailer hlen (holdsFrame_append_writeList h.2 rfl hopLen) rfl)]
  exact ⟨_, rfl, rfl, rfl, rfl, rfl⟩

end Sys2Proof.Machine
end

section
/-! ### BUILD_READ: the frame it stores, and that the frame validates (R131, R132, R134) -/

namespace Sys2Proof.Machine

open Sys2Proof.Slice0

/-- A range write from index 0 leaves its own values to be read. -/
theorem Memory.read_writeList_below {w : Nat} (m : Memory w) {vs : List (BitVec w)} {a : Nat} (ha : a < vs.length) :
    (m.writeList 0 vs).read a = vs[a]? := by
  rw [Memory.read_writeList, Nat.zero_add, if_pos ⟨Nat.zero_le a, ha⟩, Nat.sub_zero]

/-- The request the operand registers stand for, before its trailer (R131). -/
def State.request (s : State) : List Byte := requestBody s.opSlave s.opAddr s.opCount

section Build

variable {s t : State} {rest : List Input}

/-- A request's six bytes in arithmetic (R81, R85). -/
theorem State.request_eq (s : State) :
    s.request = [s.opSlave, 0x03, BitVec.ofNat 8 (s.opAddr.toNat / 256), BitVec.ofNat 8 (s.opAddr.toNat % 256),
      BitVec.ofNat 8 (s.opCount.toNat / 256), BitVec.ofNat 8 (s.opCount.toNat % 256)] := by
  simp only [State.request, requestBody, hiByte_eq_ofNat, loByte_eq_ofNat]

/-- BUILD_READ with a count of 0 or above 125 (R132). -/
theorem execBuildRead_of_illegalCount (h : s.opCount.toNat = 0 ∨ Config.maxRegisterCount < s.opCount.toNat) :
    execBuildRead s = .next { s with status := 0x01 } :=
  if_pos h

/-- BUILD_READ with a count of 1 to 125 (R131). -/
theorem execBuildRead_of_legalCount (hmin : 1 ≤ s.opCount.toNat) (hmax : s.opCount.toNat ≤ Config.maxRegisterCount) :
    execBuildRead s = .next { s with
      fb := s.fb.writeList 0 (s.request ++ crcTrailer (crc16 s.request))
      resCrc := crc16 s.request
      status := 0x00 } :=
  if_neg fun h => h.elim (Nat.ne_of_gt hmin) (Nat.not_lt.2 hmax)

theorem step_of_buildRead (hmin : 1 ≤ s.opCount.toNat) (hmax : s.opCount.toNat ≤ Config.maxRegisterCount)
    (hp : s.pending = .access (.wr .cmd 0x10) :: rest) :
    step s = .next { s with
      pending := rest
      fb := s.fb.writeList 0 (s.request ++ crcTrailer (crc16 s.request))
      resCrc := crc16 s.request
      status := 0x00 } :=
  (stepExecutesTheIssuedCommand s 0x10 .buildRead rest hp (by decide) rfl).trans (execBuildRead_of_legalCount hmin hmax)

/-- A sequence written from index 0 on, OP_LEN its length, is a frame FB holds. -/
theorem holdsFrame_of_writeList {raw : List Byte} (hfb : t.fb = s.fb.writeList 0 raw) (hlen : t.opLen.toNat = raw.length) :
    t.holdsFrame raw :=
  ⟨hlen, fun i hi => by rw [hfb, Memory.read_writeList_below s.fb hi, List.getElem?_eq_getElem hi]⟩

end Build

/-- Settles O25: what is stored is a range write of the request and its trailer from FB's start on. -/
theorem buildReadStoresTheRequestFrame : Obligations.BuildReadStoresTheRequestFrame := by
  refine ⟨rfl, fun _ hcount => execBuildRead_of_illegalCount hcount, fun s hmin hmax =>
    ⟨_, s.request, execBuildRead_of_legalCount hmin hmax, s.request_eq, rfl, fun a ha => ?_, ?_⟩⟩
  · rw [sentLowFirst_eq_crcTrailer]
    exact Memory.read_writeList_below s.fb ha
  · exact Memory.read_writeList_above s.fb (Nat.le_of_eq rfl)

/-- Settles O26: after BUILD_READ and OP_LEN := 8, FB holds the request with its own trailer. -/
theorem builtRequestAlwaysValidates : Obligations.BuiltRequestAlwaysValidates := by
  intro s rest hmin hmax hp
  have hfits : s.request.length ≤ Config.fbSize - 2 := Nat.le_of_ble_eq_true rfl
  rw [core_run_succ (step_of_buildRead hmin hmax hp), core_run_succ (step_of_writeOpLen (n := 8) (by decide) rfl),
    core_run_succ (step_of_crcValidate_ownTrailer hfits (holdsFrame_of_writeList rfl rfl) rfl)]
  exact ⟨_, rfl, rfl, rfl, rfl⟩

end Sys2Proof.Machine
end

section
/-! ### PARSE on a written frame: the header checks, the exception path and the success path (R150–R157) -/

namespace Sys2Proof.Machine

open Sys2Proof.Slice0

section Header

variable {slave fc : Byte} {raw : List Byte}

/-- Fewer than five bytes, whatever they are (R151). -/
theorem parseFrame_of_short (hlen : raw.length < 5) : parseFrame slave fc raw = { status := .frameTooShort } :=
  if_pos hlen

/-- A frame of another slave, whatever follows its first byte (R152). -/
theorem parseFrame_of_otherSlave (hlen : 5 ≤ raw.length) (hslave : byteAt raw 0 ≠ slave) :
    parseFrame slave fc raw = { status := .slaveIdMismatch } := by
  rw [parseFrame, if_neg (Nat.not_lt.2 hlen), if_pos hslave]

/-- The expected slave and the exception code lead to the exception path (R153). -/
theorem parseFrame_of_exceptionCode (hlen : 5 ≤ raw.length) (hslave : byteAt raw 0 = slave)
    (hcode : byteAt raw 1 = exceptionCodeOf fc) : parseFrame slave fc raw = parseException raw := by
  rw [parseFrame, if_neg (Nat.not_lt.2 hlen), if_neg (not_not.2 hslave), if_pos hcode]

/-- The expected slave and a function code that is neither the expected one nor its exception code (R154). -/
theorem parseFrame_of_otherFunctionCode (hlen : 5 ≤ raw.length) (hslave : byteAt raw 0 = slave)
    (hexc : byteAt raw 1 ≠ exceptionCodeOf fc) (hcode : byteAt raw 1 ≠ fc) :
    parseFrame slave fc raw = { status := .functionCodeMismatch } := by
  rw [parseFrame, if_neg (Nat.not_lt.2 hlen), if_neg (not_not.2 hslave), if_neg hexc, if_pos hcode]

end Header

/-- What is appended to a sequence leaves its own bytes where they are. -/
theorem byteAt_append_left {xs : List Byte} {i : Nat} (h : i < xs.length) (ys : List Byte) :
    byteAt (xs ++ ys) i = byteAt xs i :=
  List.getD_append xs ys 0 i h

/-- The trailer behind a body matches a checksum when its two bytes make the checksum's number, low byte first (R87). -/
theorem trailerMatches_append (c : Word) {body : List Byte} {n : Nat} (hn : body.length = n) (lo hi : Byte) :
    trailerMatches c (body ++ [lo, hi]) n = decide (c.toNat = lo.toNat + 256 * hi.toNat) := by
  rw [trailerMatches, ← hn, trailerAt_append, beq_joinBytes_eq_decide]

/-- A word as its bytes in arithmetic (R11). -/
theorem joinBytes_eq_ofNat (hi lo : Byte) : joinBytes hi lo = BitVec.ofNat 16 (hi.toNat * 256 + lo.toNat) := by
  rw [← toNat_joinBytes, BitVec.ofNat_toNat, BitVec.setWidth_eq]

/-- Word `k` of the payload behind a header of three bytes (R86, R157). -/
theorem getElem_payloadWords_of_header {b₀ b₁ b₂ : Byte} {data after : List Byte} {n k : Nat} (hk : k < n)
    (hdata : 2 * k + 1 < data.length) :
    (payloadWords (b₀ :: b₁ :: b₂ :: (data ++ after)) 3 n)[k]'(by rwa [length_payloadWords]) =
      BitVec.ofNat 16 (data[2 * k].toNat * 256 + data[2 * k + 1].toNat) := by
  have hbyte (i : Nat) (h : i < data.length) : byteAt (b₀ :: b₁ :: b₂ :: (data ++ after)) (3 + i) = data[i] := by
    rw [Nat.add_comm, ← byteAt_eq_getElem h, ← byteAt_append_left h after]
    rfl
  rw [getElem_payloadWords, Nat.add_assoc, hbyte _ hdata, hbyte _ (Nat.lt_of_succ_lt hdata), joinBytes_eq_ofNat]

/-- An exception frame of another length than five bytes (R153). -/
theorem parseException_of_long {raw : List Byte} (hlen : raw.length ≠ 5) :
    parseException raw = { status := .frameTooLong, excCode := some (byteAt raw 2) } :=
  if_pos hlen

/-- An exception frame of five bytes: the trailer decides (R153). -/
theorem parseException_of_trailer (slave fc code lo hi : Byte) :
    parseException [slave, fc, code, lo, hi] = {
      status := if (crc16 [slave, fc, code]).toNat = lo.toNat + 256 * hi.toNat then .deviceException else .crcMismatch
      excCode := some code
      resCrc := some (crc16 [slave, fc, code]) } := by
  have hmatch := trailerMatches_append (crc16 [slave, fc, code]) (body := [slave, fc, code]) rfl lo hi
  obtain ⟨hlen, -⟩ | ⟨-, c, rfl, ⟨hgood, h⟩ | ⟨hbad, h⟩⟩ := parseException_cases [slave, fc, code, lo, hi]
  · exact absurd rfl hlen
  · rw [h, if_pos (of_decide_eq_true (hmatch.symm.trans hgood))]; rfl
  · rw [h, if_neg (of_decide_eq_false (hmatch.symm.trans hbad))]; rfl

section SuccessPath

variable {raw : List Byte}

/-- A success frame shorter than its byte count asks for (R155). -/
theorem parseSuccess_of_short (hlen : raw.length < (byteAt raw 2).toNat + 5) :
    parseSuccess raw = { status := .frameTooShort, resBc := some (byteAt raw 2) } :=
  if_pos (by omega)

/-- A success frame longer than its byte count asks for (R155). -/
theorem parseSuccess_of_long (hlen : (byteAt raw 2).toNat + 5 < raw.length) :
    parseSuccess raw = { status := .frameTooLong, resBc := some (byteAt raw 2) } :=
  (if_neg (by omega)).trans (if_pos (by omega))

/-- A success frame of the length its byte count asks for: the trailer decides, then the parity (R156, R157). -/
theorem parseSuccess_of_trailer {body : List Byte} {bc : Byte} (hbc : byteAt body 2 = bc)
    (hbody : body.length = 3 + bc.toNat) (lo hi : Byte) :
    parseSuccess (body ++ [lo, hi]) =
      if (crc16 body).toNat = lo.toNat + 256 * hi.toNat then
        if bc.toNat % 2 = 1 then { status := .oddByteCount, resBc := some bc, resCrc := some (crc16 body) }
        else
          { status := .ok, resBc := some bc, resCrc := some (crc16 body),
            words := payloadWords (body ++ [lo, hi]) 3 (bc.toNat / 2) }
      else { status := .crcMismatch, resBc := some bc, resCrc := some (crc16 body) } := by
  have hcount : byteAt (body ++ [lo, hi]) 2 = bc := by rw [byteAt_append_left (by omega), hbc]
  have hlen : (body ++ [lo, hi]).length = 3 + bc.toNat + 2 := by rw [List.length_append, hbody]; rfl
  simp only [parseSuccess, hcount, hlen, Nat.lt_irrefl, if_false, gt_iff_lt, List.take_left' hbody,
    trailerMatches_append _ hbody, Bool.not_eq_true', decide_eq_false_iff_not, ite_not]

end SuccessPath

section Commands

variable {s : State} {b : Byte} {tail : List Byte} {r : ParseReport}

/-- PARSE on a written frame whose checks report `r` leaves the state `r` stands for. -/
theorem exec_parse_of_report {raw : List Byte} (h : s.holdsFrame raw) (hlen : raw.length ≤ Config.fbSize)
    (hr : parseFrame s.opSlave s.opFc raw = r) : exec .parse s = .next (r.apply s) :=
  hr ▸ execParse_of_holdsFrame hlen h

/-- PARSE on a frame of the expected slave with the exception code takes the exception path (R153). -/
theorem exec_parse_of_exception (h : s.holdsFrame (s.opSlave :: (s.opFc ||| 0x80) :: b :: tail))
    (hmin : 2 ≤ tail.length) (hmax : tail.length ≤ 257)
    (hr : parseException (s.opSlave :: (s.opFc ||| 0x80) :: b :: tail) = r) : exec .parse s = .next (r.apply s) :=
  exec_parse_of_report h (Nat.add_le_add_right hmax 3)
    (hr ▸ parseFrame_of_exceptionCode (Nat.add_le_add_right hmin 3) rfl rfl)

/-- PARSE on a frame of the expected slave and function takes the success path (R155, R159). -/
theorem exec_parse_of_success (h : s.holdsFrame (s.opSlave :: s.opFc :: b :: tail)) (hmin : 2 ≤ tail.length)
    (hmax : tail.length ≤ 257) (hfc : s.opFc ≠ s.opFc ||| 0x80)
    (hr : parseSuccess (s.opSlave :: s.opFc :: b :: tail) = r) : exec .parse s = .next (r.apply s) :=
  exec_parse_of_report h (Nat.add_le_add_right hmax 3)
    (hr ▸ parseFrame_of_header (Nat.add_le_add_right hmin 3) rfl rfl hfc)

end Commands

/-- Settles O27: step 0 comes before FB is read, step 1 before any byte is looked at. -/
theorem parseRejectsBadLengths : Obligations.ParseRejectsBadLengths :=
  ⟨fun _ hlong => if_pos hlong, fun _ _ hshort h =>
    exec_parse_of_report h (Nat.le_trans (Nat.le_of_lt hshort) (by decide)) (parseFrame_of_short hshort)⟩

/-- Settles O28: step 2 looks at the first byte only. -/
theorem parseReportsAnotherSlaveFirst : Obligations.ParseReportsAnotherSlaveFirst := fun _ _ _ hmin hmax h hslave =>
  exec_parse_of_report h (Nat.add_le_add_right hmax 1) (parseFrame_of_otherSlave (Nat.add_le_add_right hmin 1) hslave)

/-- Settles O29: the exception path on a longer frame, and on one of five bytes. -/
theorem parseExtractsTheDeviceException : Obligations.ParseExtractsTheDeviceException := by
  refine ⟨fun s code tail hmin hmax h => ?_, fun s code lo hi h => ?_⟩
  · exact exec_parse_of_exception h (Nat.le_of_succ_le hmin) hmax
      (parseException_of_long (Nat.ne_of_gt (Nat.add_le_add_right hmin 3)))
  · rw [exec_parse_of_exception h (Nat.le_refl 2) (Nat.le_add_right 2 255) (parseException_of_trailer _ _ code lo hi)]
    split <;> rfl

/-- Settles O30: steps 3 and 4 look at byte 1. -/
theorem parseRejectsAnotherFunctionCode : Obligations.ParseRejectsAnotherFunctionCode :=
  fun _ _ _ hmin hmax h hexc hcode => exec_parse_of_report h (Nat.add_le_add_right hmax 2)
    (parseFrame_of_otherFunctionCode (Nat.add_le_add_right hmin 2) rfl hexc hcode)

/-- Settles O31: step 5 compares the length with what byte 2 asks for. -/
theorem parseChecksTheByteCount : Obligations.ParseChecksTheByteCount :=
  fun _ _ _ hmin hmax h hfc =>
    ⟨fun hshort => exec_parse_of_success h hmin hmax hfc (parseSuccess_of_short (Nat.add_lt_add_right hshort 3)),
      fun hlong => exec_parse_of_success h hmin hmax hfc (parseSuccess_of_long (Nat.add_lt_add_right hlong 3))⟩

/-- Settles O32: the three ends of `parseSuccess_of_trailer`. -/
theorem parseUnpacksTheCheckedPayload : Obligations.ParseUnpacksTheCheckedPayload := by
  intro s bc lo hi data hdata h hfc
  have hbody : (s.opSlave :: s.opFc :: bc :: data).length = 3 + bc.toNat := by
    simp only [List.length_cons, hdata, Nat.add_comm 3]
  have hcount : byteAt (s.opSlave :: s.opFc :: bc :: data) 2 = bc := rfl
  have htail : (data ++ [lo, hi]).length = bc.toNat + 2 := by rw [List.length_append, hdata]; rfl
  have hexec := exec_parse_of_success h (by omega) (by omega) hfc (parseSuccess_of_trailer hcount hbody lo hi)
  refine ⟨_, rfl, fun hbad => ?_, fun hmatch hodd => ?_, fun hmatch heven => ?_⟩
  · rw [hexec, if_neg hbad]; rfl
  · rw [hexec, if_pos hmatch, if_pos hodd]; rfl
  · rw [if_pos hmatch, if_neg (by omega)] at hexec
    have hlen := length_payloadWords (s.opSlave :: s.opFc :: bc :: data ++ [lo, hi]) 3 (bc.toNat / 2)
    refine ⟨_, hexec, ?_, fun k hk => ?_, fun k hk => ?_⟩
    · simp only [ParseReport.apply, hlen]
      rfl
    · have hword : k < bc.toNat / 2 := by omega
      rw [← getElem_payloadWords_of_header hword hk]
      exact ParseReport.wordsAre_apply _ s k (hlen.symm ▸ hword)
    · exact Memory.read_writeList_above s.wb (Nat.le_of_eq hlen) k hk

end Sys2Proof.Machine
end

section
/-! ### After a failed PARSE a DECODE finds too few words (R158, R181–R183) -/

namespace Sys2Proof.Machine

open Sys2Proof.Slice0

/-- The KIND value of a kind (R77). -/
def Kind.value : Kind → Nat
  | .unsignedScaled => 0
  | .signedMagnitudeByte => 1
  | .wideUnsigned => 2
  | .packedAscii => 3
  | .packedVersion => 4

/-- A KIND value names the kind whose value it is (R77). -/
theorem kindOf_eq_some_iff {b : BitVec 3} {k : Kind} : kindOf b = some k ↔ b.toNat = k.value := by
  revert b; cases k <;> decide

/-- KIND names an encoding exactly up to 4 (R77). -/
theorem exists_kindOf_iff {b : BitVec 3} : (∃ k, kindOf b = some k) ↔ b.toNat ≤ 4 := by
  rw [← Option.isSome_iff_exists]; revert b; decide

/-- Only SCALE 3 is reserved (R78). -/
theorem divisorOf_eq_none_iff {scale : BitVec 2} : divisorOf scale = none ↔ scale.toNat = 3 := by
  revert scale; decide

section Definition

variable {d : Word} {k : Kind}

/-- A well-formed definition has the word count its kind needs (R184). -/
theorem defWc_eq_need (hk : kindOf (defKind d) = some k) (hwf : wellFormedDefinition d) :
    (defWc d).toNat = need (defWc d).toNat k := by
  obtain ⟨-, -, -, -, hone, htwo⟩ := hwf
  rw [kindOf_eq_some_iff, toNat_defKind] at hk
  rw [toNat_defWc]
  cases k with
  | unsignedScaled => exact hone (.inl hk)
  | signedMagnitudeByte => exact hone (.inr hk)
  | wideUnsigned => exact htwo (.inl hk)
  | packedAscii => rfl
  | packedVersion => exact htwo (.inr hk)

/-- A supported definition has no reserved divisor (R78, R181). -/
theorem not_reservedDivisor (hk : kindOf (defKind d) = some k) (hsupp : supportedDefinition d) :
    ¬ (k = .unsignedScaled ∧ divisorOf (defScale d) = none) := by
  rintro ⟨rfl, hscale⟩
  rw [kindOf_eq_some_iff, toNat_defKind] at hk
  rw [divisorOf_eq_none_iff, toNat_defScale] at hscale
  exact hsupp.2 ⟨hk, hscale⟩

/-- With a definition that is supported and well formed, only the number of words can fail (R183, R216). -/
theorem definitionFailure_of_wellFormed (hk : kindOf (defKind d) = some k) (hsupp : supportedDefinition d)
    (hwf : wellFormedDefinition d) (wcnt : Byte) :
    definitionFailure d wcnt k = if wcnt.toNat < (defWc d).toNat then some .insufficientWords else none := by
  have hneed := defWc_eq_need hk hwf
  obtain ⟨hrsvd0, hrsvd1, hmin, hmax, -, -⟩ := hwf
  rw [← toNat_defRsvd0] at hrsvd0
  rw [← toNat_defRsvd1] at hrsvd1
  rw [← toNat_defWc] at hmin hmax
  have hreserved : ¬ (defRsvd0 d ≠ 0 ∨ defRsvd1 d = true) := by
    rintro (h | h)
    · exact h (BitVec.eq_of_toNat_eq hrsvd0)
    · simp [h] at hrsvd1
  have hcount : ¬ ((defWc d).toNat = 0 ∨ (defWc d).toNat > Config.maxRegisterCount) := by
    show ¬ (_ ∨ _ > 125)
    omega
  rw [definitionFailure, if_neg (not_reservedDivisor hk hsupp), if_neg hreserved, if_neg hcount,
    if_neg (not_not.2 hneed)]

end Definition

/-- With no words, DECODE of a supported, well-formed definition is InsufficientWords (R183). -/
theorem execDecode_of_noWords {s : State} (hwcnt : s.wcnt = 0) (hsupp : supportedDefinition s.defReg)
    (hwf : wellFormedDefinition s.defReg) : execDecode s = .next (s.setStatus .insufficientWords) := by
  obtain ⟨k, hk⟩ := exists_kindOf_iff.2 ((toNat_defKind s.defReg).trans_le hsupp.1)
  have hshort : (0 : Byte).toNat < (defWc s.defReg).toNat := by
    obtain ⟨-, -, hmin, -⟩ := hwf
    rwa [toNat_defWc]
  refine execDecode_of_fails hk ?_
  rw [definitionFailure_of_wellFormed hk hsupp hwf, hwcnt, if_pos hshort]

/-- A PARSE with a status other than OK stores no words (R158). -/
theorem execParse_fails {s t : State} (h : execParse s = .next t) (hfail : t.status ≠ 0x00) :
    t.wcnt = 0 ∧ t.wb = s.wb := by
  obtain ⟨-, rfl⟩ | ⟨-, raw, -, -, rfl⟩ := execParse_next h
  · exact ⟨rfl, rfl⟩
  · have hne : (parseFrame s.opSlave s.opFc raw).status ≠ .ok := fun hok => hfail ((Status.code_eq_zero_iff _).2 hok)
    have hwords := (parseFrame_words s.opSlave s.opFc raw).2 hne
    simp only [ParseReport.apply, hwords]
    exact ⟨rfl, rfl⟩

/-- Settles O33: a failed PARSE leaves no words, and DECODE then finds too few. -/
theorem failedParseSuppliesNoWords : Obligations.FailedParseSuppliesNoWords := by
  intro s t hexec hfail
  obtain ⟨hwcnt, hwb⟩ := execParse_fails hexec hfail
  exact ⟨hwcnt, hwb, fun d hsupp hwf => execDecode_of_noWords (s := { t with defReg := d }) hwcnt hsupp hwf⟩

end Sys2Proof.Machine
end

section
/-! ### DECODE's checks, in the order they are reported (R181–R183, R195, R216) -/

namespace Sys2Proof.Machine

open Sys2Proof.Slice0

section Checks

variable {d : Word} {k : Kind}

/-- A definition is supported when KIND names a kind and SCALE is not reserved for it (R77, R78, R181). -/
theorem supportedDefinition_iff :
    supportedDefinition d ↔
      ∃ k, kindOf (defKind d) = some k ∧ ¬ (k = .unsignedScaled ∧ divisorOf (defScale d) = none) := by
  constructor
  · intro hsupp
    obtain ⟨k, hk⟩ := exists_kindOf_iff.2 ((toNat_defKind d).trans_le hsupp.1)
    exact ⟨k, hk, not_reservedDivisor hk hsupp⟩
  · rintro ⟨k, hk, hdiv⟩
    refine ⟨toNat_defKind d ▸ exists_kindOf_iff.1 ⟨k, hk⟩, fun ⟨hkind, hscale⟩ => hdiv ⟨?_, ?_⟩⟩
    · have hzero : kindOf (defKind d) = some .unsignedScaled := kindOf_eq_some_iff.2 ((toNat_defKind d).trans hkind)
      exact Option.some.inj (hk.symm.trans hzero)
    · exact divisorOf_eq_none_iff.2 ((toNat_defScale d).trans hscale)

/-- A definition that passes the checks of its form is well formed (R182, R184). -/
theorem wellFormedDefinition_of_checks (hk : kindOf (defKind d) = some k) (hrsvd0 : defRsvd0 d = 0)
    (hrsvd1 : defRsvd1 d = false) (hmin : 1 ≤ (defWc d).toNat) (hmax : (defWc d).toNat ≤ 125)
    (hneed : (defWc d).toNat = need (defWc d).toNat k) : wellFormedDefinition d := by
  rw [kindOf_eq_some_iff, toNat_defKind] at hk
  rw [toNat_defWc] at hmin hmax hneed
  refine ⟨(toNat_defRsvd0 d).symm.trans (congrArg BitVec.toNat hrsvd0),
    (toNat_defRsvd1 d).symm.trans (congrArg Bool.toNat hrsvd1), hmin, hmax, ?_⟩
  cases k <;> simp only [Kind.value, need] at hk hneed <;> omega

/-- A supported definition that is malformed fails its checks whatever words there are (R182, R216). -/
theorem definitionFailure_of_malformed (hk : kindOf (defKind d) = some k) (hsupp : supportedDefinition d)
    (hmal : ¬ wellFormedDefinition d) (wcnt : Byte) : definitionFailure d wcnt k = some .invalidArgument := by
  rw [definitionFailure, if_neg (not_reservedDivisor hk hsupp)]
  split
  · rfl
  next hreserved =>
  split
  · rfl
  next hrange =>
  split
  · rfl
  next hneed =>
  rw [not_or, not_not, Bool.not_eq_true] at hreserved
  have hmax : (defWc d).toNat ≤ 125 := Nat.not_lt.1 fun h => hrange (.inr h)
  exact absurd (wellFormedDefinition_of_checks hk hreserved.1 hreserved.2
    (Nat.one_le_iff_ne_zero.2 fun h => hrange (.inl h)) hmax (not_not.1 hneed)) hmal

end Checks

section Failures

variable {s : State}

/-- DECODE of an encoding the block does not support (R181). -/
theorem execDecode_of_unsupported (hsupp : ¬ supportedDefinition s.defReg) :
    execDecode s = .next (s.setStatus .unsupportedEncoding) := by
  cases hk : kindOf (defKind s.defReg) with
  | none => exact execDecode_of_noKind hk
  | some k =>
    have hreserved : k = .unsignedScaled ∧ divisorOf (defScale s.defReg) = none :=
      not_not.1 fun hdiv => hsupp (supportedDefinition_iff.2 ⟨k, hk, hdiv⟩)
    exact execDecode_of_fails hk (if_pos hreserved)

/-- DECODE of a malformed definition of a supported encoding (R182). -/
theorem execDecode_of_malformed (hsupp : supportedDefinition s.defReg) (hmal : ¬ wellFormedDefinition s.defReg) :
    execDecode s = .next (s.setStatus .invalidArgument) := by
  obtain ⟨k, hk, -⟩ := supportedDefinition_iff.1 hsupp
  exact execDecode_of_fails hk (definitionFailure_of_malformed hk hsupp hmal s.wcnt)

/-- DECODE with fewer words than the definition names (R183). -/
theorem execDecode_of_tooFewWords (hsupp : supportedDefinition s.defReg) (hwf : wellFormedDefinition s.defReg)
    (hshort : s.wcnt.toNat < defField s.defReg 8 7) : execDecode s = .next (s.setStatus .insufficientWords) := by
  obtain ⟨k, hk, -⟩ := supportedDefinition_iff.1 hsupp
  rw [← toNat_defWc] at hshort
  exact execDecode_of_fails hk ((definitionFailure_of_wellFormed hk hsupp hwf s.wcnt).trans (if_pos hshort))

end Failures

/-- Settles O38: one lemma for each failure. -/
theorem decodeReportsTheFirstFailure : Obligations.DecodeReportsTheFirstFailure := fun _ =>
  ⟨execDecode_of_unsupported, execDecode_of_malformed, execDecode_of_tooFewWords⟩

/-- Settles O45: DECODE either leaves only a status, or records a decoding with OK. -/
theorem failedDecodeWritesOnlyStatus : Obligations.FailedDecodeWritesOnlyStatus := by
  intro s t hexec hfail
  obtain ⟨-, rfl⟩ | ⟨k, st, -, -, rfl⟩ | ⟨k, words, -, -, -, -, rfl⟩ := execDecode_next hexec
  · rfl
  · rfl
  · exact absurd rfl hfail

/-- Settles O46: another WB passes the same checks, and its first WC words are the same. -/
theorem decodeReadsOnlyTheDefinedWords : Obligations.DecodeReadsOnlyTheDefinedWords := by
  intro s t wb' hagree hexec
  obtain ⟨hk, rfl⟩ | ⟨k, st, hk, hf, rfl⟩ | ⟨k, words, hk, hf, hlen, hwords, rfl⟩ := execDecode_next hexec
  · exact ⟨execDecode_of_noKind (s := { s with wb := wb' }) hk, rfl, rfl⟩
  · exact ⟨execDecode_of_fails (s := { s with wb := wb' }) hk hf, rfl, rfl⟩
  · have hwords' : State.wordsAre { s with wb := wb' } words := fun i hi =>
      (hagree i (by rwa [← toNat_defWc, ← hlen])).trans (hwords i hi)
    exact ⟨execDecode_of_passes (s := { s with wb := wb' }) hk hf hlen hwords', rfl, rfl⟩

end Sys2Proof.Machine
end

section
/-! ### DECODE of a well-formed definition: the numeric kinds and packed-ASCII (R185–R191) -/

namespace Sys2Proof.Machine

open Sys2Proof.Slice0

/-- DECODE of a well-formed definition whose words are there records the value they have under its kind (R180, R184). -/
theorem exec_decode_of_words {s : State} {k : Kind} {words : List Word} {v : Decoded}
    (hkind : defField s.defReg 0 3 = k.value) (hdiv : k = .unsignedScaled → defField s.defReg 4 2 ≠ 3)
    (hwf : wellFormedDefinition s.defReg) (hwords : s.wordsAre words) (hlen : words.length = need (defField s.defReg 8 7) k)
    (hcount : words.length ≤ s.wcnt.toNat) (hv : decodeKind s.defReg words k = v) :
    exec .decode s = .next (v.apply s) := by
  have hk : kindOf (defKind s.defReg) = some k := kindOf_eq_some_iff.2 ((toNat_defKind _).trans hkind)
  have hsupp : supportedDefinition s.defReg := supportedDefinition_iff.2 ⟨k, hk, fun ⟨hzero, hnone⟩ =>
    hdiv hzero ((toNat_defScale _).symm.trans (divisorOf_eq_none_iff.1 hnone))⟩
  rw [← toNat_defWc, ← defWc_eq_need hk hwf] at hlen
  have hpass : definitionFailure s.defReg s.wcnt k = none :=
    (definitionFailure_of_wellFormed hk hsupp hwf s.wcnt).trans (if_neg (Nat.not_lt.2 (hlen ▸ hcount)))
  exact hv ▸ execDecode_of_passes hk hpass hlen hwords

section Values

/-- The divisors of the three legal SCALE codes (R78). -/
theorem divisor_eq_of_mem {scale : BitVec 2} {n : Byte} (h : (scale.toNat, n) ∈ [(0, 1), (1, 10), (2, 100)]) :
    divisor scale = n := by
  simp only [List.mem_cons, Prod.mk.injEq, List.not_mem_nil, or_false] at h
  obtain ⟨hscale, rfl⟩ | ⟨hscale, rfl⟩ | ⟨hscale, rfl⟩ := h <;> simp only [divisor, divisorOf, hscale, Option.getD_some]

/-- Bit 7 of a byte as a number. -/
theorem getLsbD_seven_iff (b : Byte) : b.getLsbD 7 = true ↔ b.toNat / 128 = 1 := by
  have hbit : (b.getLsbD 7).toNat = b.toNat / 128 % 2 := Nat.toNat_testBit b.toNat 7
  have hlt := b.isLt
  cases h : b.getLsbD 7 with
  | false => rw [h, Bool.toNat_false] at hbit; simp only [Bool.false_eq_true, false_iff]; omega
  | true => rw [h, Bool.toNat_true] at hbit; simp only [true_iff]; omega

/-- A signed-magnitude byte in integer arithmetic (R187). -/
theorem signedMagnitude_eq_ofInt (b : Byte) :
    signedMagnitude b =
      BitVec.ofInt 32 (if b.toNat / 128 = 1 then -((b.toNat % 128 : Nat) : Int) else ((b.toNat % 128 : Nat) : Int)) := by
  have hmag : (b.extractLsb' 0 7).setWidth 32 = BitVec.ofInt 32 ((b.toNat % 128 : Nat) : Int) := by
    rw [BitVec.ofInt_natCast, ← BitVec.ofNat_toNat, BitVec.extractLsb'_toNat, Nat.shiftRight_zero]
  rw [signedMagnitude, hmag]
  by_cases hsign : b.toNat / 128 = 1
  · rw [if_pos ((getLsbD_seven_iff b).2 hsign), if_pos hsign, BitVec.ofInt_neg]
  · rw [if_neg (mt (getLsbD_seven_iff b).1 hsign), if_neg hsign]

/-- Two bit fields that do not overlap, put into one value, are a sum. -/
theorem shiftLeft_or_eq_ofNat {x y : DWord} {n : Nat} (hx : x.toNat * 2 ^ n < 2 ^ 32) (hy : y.toNat < 2 ^ n) :
    x <<< n ||| y = BitVec.ofNat 32 (x.toNat * 2 ^ n + y.toNat) := by
  rw [← BitVec.setWidth_eq (x <<< n ||| y), ← BitVec.ofNat_toNat, BitVec.toNat_or, BitVec.toNat_shiftLeft,
    Nat.shiftLeft_eq, Nat.mod_eq_of_lt hx, ← Nat.shiftLeft_eq, ← Nat.shiftLeft_add_eq_or_of_lt hy, Nat.shiftLeft_eq]

theorem toNat_word_setWidth (w : Word) : (w.setWidth 32).toNat = w.toNat :=
  BitVec.toNat_setWidth_of_le (by decide)

theorem toNat_byte_setWidth (b : Byte) : (b.setWidth 32).toNat = b.toNat :=
  BitVec.toNat_setWidth_of_le (by decide)

/-- wide-unsigned-multiword's value in arithmetic: the first word is the high half (R189). -/
theorem wideUnsigned_eq (w0 w1 : Word) : wideUnsigned w0 w1 = { val := BitVec.ofNat 32 (w0.toNat * 65536 + w1.toNat) } := by
  have h0 := w0.isLt
  have h1 := w1.isLt
  rw [wideUnsigned, shiftLeft_or_eq_ofNat (by rw [toNat_word_setWidth]; omega) (by rwa [toNat_word_setWidth]),
    toNat_word_setWidth, toNat_word_setWidth]
  rfl

/-- packed-ASCII's text: word `i` gives bytes `2i` and `2i + 1`, high byte first (R190). -/
theorem getElem?_asciiText (words : List Word) (i : Nat) :
    (asciiText words)[2 * i]? = words[i]?.map hiByte ∧ (asciiText words)[2 * i + 1]? = words[i]?.map loByte := by
  induction words generalizing i with
  | nil => exact ⟨rfl, rfl⟩
  | cons w ws ih =>
    cases i with
    | zero => exact ⟨rfl, rfl⟩
    | succ i => exact ih i

end Values

/-- Settles O39: the value is the word, the divisor the one SCALE names. -/
theorem decodeUnsignedScaled : Obligations.DecodeUnsignedScaled := by
  intro s w scale n hmem hkind hscale hwf hcount hwords
  have hlegal : defField s.defReg 4 2 ≠ 3 := by
    intro hthree
    simp [← hscale, hthree] at hmem
  have hn : divisor (defScale s.defReg) = n := divisor_eq_of_mem (by rwa [toNat_defScale, hscale])
  have hv : decodeKind s.defReg [w] .unsignedScaled = { val := BitVec.ofNat 32 w.toNat, scale := n } := by
    rw [BitVec.ofNat_toNat, ← hn]; rfl
  exact exec_decode_of_words hkind (fun _ => hlegal) hwf hwords rfl hcount hv

/-- The byte BSEL selects, as a number (R187). -/
theorem toNat_selectedByte (d w : Word) :
    (if defBsel d then hiByte w else loByte w).toNat = if defField d 3 1 = 1 then w.toNat / 256 else w.toNat % 256 := by
  rw [← toNat_defBsel]
  cases defBsel d with
  | false => exact toNat_loByte w
  | true => exact toNat_hiByte w

/-- Settles O40: the selected byte's magnitude, with its sign. -/
theorem decodeSignedMagnitudeByte : Obligations.DecodeSignedMagnitudeByte := by
  rintro s w b hkind hwf rfl hcount hwords
  rw [← toNat_selectedByte, ← signedMagnitude_eq_ofInt]
  exact exec_decode_of_words (k := .signedMagnitudeByte) hkind nofun hwf hwords rfl hcount rfl

/-- Settles O41: the two words side by side are a sum. -/
theorem decodeWideUnsigned : Obligations.DecodeWideUnsigned := fun _ w0 w1 hkind hwf hcount hwords =>
  exec_decode_of_words (k := .wideUnsigned) hkind nofun hwf hwords rfl hcount (wideUnsigned_eq w0 w1)

/-- Settles O42: TB's new bytes are the text of the words, a range write from index 0 on. -/
theorem decodePackedAscii : Obligations.DecodePackedAscii := by
  intro s words hkind hwf hlen hcount hwords
  have htext := length_asciiText words
  have hbyte (a : Nat) (ha : a < 2 * words.length) : (s.tb.writeList 0 (asciiText words)).read a = (asciiText words)[a]? :=
    Memory.read_writeList_below s.tb (htext.symm ▸ ha)
  refine ⟨_, exec_decode_of_words (k := .packedAscii) hkind nofun hwf hwords hlen hcount rfl, ?_, fun i hi => ?_, ?_⟩
  · simp only [Decoded.apply, decodeKind, packedAscii, htext]
    rfl
  · obtain ⟨hhi, hlo⟩ := getElem?_asciiText words i
    rw [List.getElem?_eq_getElem hi, Option.map_some] at hhi hlo
    rw [← hiByte_eq_ofNat, ← loByte_eq_ofNat, ← hhi, ← hlo]
    exact ⟨hbyte _ (by omega), hbyte _ (by omega)⟩
  · exact Memory.read_writeList_above s.tb htext.le

end Sys2Proof.Machine
end

section
/-! ### packed-version: its numerals, its value, and that its text determines the version (R192, R193) -/

namespace Sys2Proof.Machine

open Sys2Proof.Slice0

section Numerals

theorem asciiDigit_eq_digitChar {n : Nat} (h : n < 10) : asciiDigit n = BitVec.ofNat 8 n.digitChar.toNat := by
  rw [Nat.toNat_digitChar_of_lt_ten h, asciiDigit]

theorem numeral_of_lt {n : Nat} (h : n < 10) : numeral n = [asciiDigit n] := by
  rw [numeral, Nat.toDigits_of_lt_base h, asciiDigit_eq_digitChar h]
  rfl

theorem numeral_of_ge {n : Nat} (h : 10 ≤ n) : numeral n = numeral (n / 10) ++ [asciiDigit (n % 10)] := by
  rw [numeral, Nat.toDigits_of_base_le (by decide) h, List.map_append, asciiDigit_eq_digitChar (Nat.mod_lt n (by decide))]
  rfl

/-- `dec` writes the decimal numeral of a byte (R193). -/
theorem dec_eq_numeral (x : Byte) : dec x = numeral x.toNat := by
  have hx := x.isLt
  simp only [dec]
  split
  · next h => rw [numeral_of_lt h]
  · split
    · rw [numeral_of_ge (by omega), numeral_of_lt (by omega)]
      rfl
    · rw [numeral_of_ge (by omega), numeral_of_ge (by omega), numeral_of_lt (by omega), Nat.div_div_eq_div_mul]
      rfl

/-- Every byte of a numeral is a digit (R193). -/
theorem exists_asciiDigit_of_mem_dec {x b : Byte} (h : b ∈ dec x) : ∃ n, n < 10 ∧ b = asciiDigit n := by
  have hx := x.isLt
  simp only [dec] at h
  split at h
  · next hlt => exact ⟨_, hlt, List.mem_singleton.1 h⟩
  · split at h
    · simp only [List.mem_cons, List.not_mem_nil, or_false] at h
      obtain rfl | rfl := h <;> exact ⟨_, by omega, rfl⟩
    · simp only [List.mem_cons, List.not_mem_nil, or_false] at h
      obtain rfl | rfl | rfl := h <;> exact ⟨_, by omega, rfl⟩

/-- No numeral holds the separator "." -/
theorem dot_notMem_dec (x : Byte) : (0x2E : Byte) ∉ dec x := by
  intro h
  obtain ⟨n, hn, hdot⟩ := exists_asciiDigit_of_mem_dec h
  have htoNat : 0x2E = (0x30 + n) % 256 := congrArg BitVec.toNat hdot
  omega

/-- The number a text of decimal digits stands for. -/
def digitsValue (text : List Byte) : Nat := text.foldl (fun n digit => 10 * n + (digit.toNat - 0x30)) 0

theorem digitsValue_dec (x : Byte) : digitsValue (dec x) = x.toNat := by
  have hx := x.isLt
  have hdigit {n : Nat} (h : n < 10) : (asciiDigit n).toNat - 0x30 = n := by
    rw [asciiDigit, BitVec.toNat_ofNat]
    omega
  simp only [dec]
  split
  · next h => simp only [digitsValue, List.foldl, hdigit h]; omega
  · split
    · rw [digitsValue, List.foldl, List.foldl, List.foldl, hdigit (by omega), hdigit (by omega)]
      omega
    · rw [digitsValue, List.foldl, List.foldl, List.foldl, List.foldl, hdigit (by omega), hdigit (by omega),
        hdigit (by omega)]
      omega

/-- Different bytes have different numerals. -/
theorem dec_injective : Function.Injective dec := fun x y h => by
  rw [← BitVec.toNat_inj, ← digitsValue_dec, h, digitsValue_dec]

end Numerals

section Text

theorem versionText_eq (major minor patch : Byte) :
    versionText major minor patch = 0x56 :: (dec major ++ 0x2E :: (dec minor ++ 0x2E :: dec patch)) := by
  simp only [versionText, List.append_assoc, List.cons_append, List.nil_append]

/-- A list is cut in one way only at the first place an element stands. -/
theorem eq_of_append_cons_eq_of_notMem {α : Type} [DecidableEq α] {a : α} {xs xs' ys ys' : List α} (hx : a ∉ xs)
    (hx' : a ∉ xs') (h : xs ++ a :: ys = xs' ++ a :: ys') : xs = xs' ∧ ys = ys' := by
  have hlen : xs.length = xs'.length := by
    have hidx := congrArg (List.idxOf a) h
    rwa [List.idxOf_append_of_notMem hx, List.idxOf_append_of_notMem hx', List.idxOf_cons_self, List.idxOf_cons_self] at hidx
  obtain ⟨hxs, htail⟩ := List.append_inj h hlen
  exact ⟨hxs, List.tail_eq_of_cons_eq htail⟩

/-- packed-version's value in arithmetic: the low byte of the first word above the second word (R192). -/
theorem packedVersion_eq (w0 w1 : Word) :
    packedVersion w0 w1 = {
      val := BitVec.ofNat 32 (w0.toNat % 256 * 65536 + w1.toNat)
      text := versionText (loByte w0) (hiByte w1) (loByte w1) } := by
  have hmajor := (loByte w0).isLt
  have hminor := (hiByte w1).isLt
  have hpatch := (loByte w1).isLt
  have hlow : (hiByte w1).setWidth 32 <<< 8 ||| (loByte w1).setWidth 32 = w1.setWidth 32 := by
    rw [shiftLeft_or_eq_ofNat (by rw [toNat_byte_setWidth]; omega) (by rwa [toNat_byte_setWidth]), toNat_byte_setWidth,
      toNat_byte_setWidth, toNat_hiByte, toNat_loByte, ← BitVec.ofNat_toNat]
    exact congrArg (BitVec.ofNat 32) (Nat.div_add_mod' w1.toNat 256)
  have hw1 := w1.isLt
  rw [packedVersion, BitVec.or_assoc, hlow,
    shiftLeft_or_eq_ofNat (by rw [toNat_byte_setWidth]; omega) (by rwa [toNat_word_setWidth]), toNat_byte_setWidth,
    toNat_word_setWidth, toNat_loByte]
  rfl

end Text

/-- Settles O44: the separators are found, as no numeral holds one, and the numerals determine their bytes. -/
theorem versionTextDeterminesTheComponents : Obligations.VersionTextDeterminesTheComponents := by
  intro a b c a' b' c' h
  rw [versionText_eq, versionText_eq] at h
  obtain ⟨hmajor, hrest⟩ := eq_of_append_cons_eq_of_notMem (dot_notMem_dec a) (dot_notMem_dec a')
    (List.tail_eq_of_cons_eq h)
  obtain ⟨hminor, hpatch⟩ := eq_of_append_cons_eq_of_notMem (dot_notMem_dec b) (dot_notMem_dec b') hrest
  exact ⟨dec_injective hmajor, dec_injective hminor, dec_injective hpatch⟩

/-- Settles O43: the text is `versionText`, whose numerals are the library's. -/
theorem decodePackedVersion : Obligations.DecodePackedVersion := by
  intro s w0 w1 text hkind hwf hcount hwords htext
  have hversion : versionText (loByte w0) (hiByte w1) (loByte w1) = text := by
    rw [versionText, dec_eq_numeral, dec_eq_numeral, dec_eq_numeral, toNat_loByte, toNat_hiByte, toNat_loByte, htext]
  obtain ⟨hmin, hmax⟩ := length_versionText_bounds (loByte w0) (hiByte w1) (loByte w1)
  have hexec := exec_decode_of_words (k := .packedVersion) hkind nofun hwf hwords rfl hcount
    (packedVersion_eq w0 w1)
  rw [hversion] at hmin hmax hexec
  exact ⟨hmin, hmax, _, hexec, rfl, fun _ => Memory.read_writeList_below s.tb,
    Memory.read_writeList_above s.tb (Nat.le_refl text.length)⟩

end Sys2Proof.Machine
end

section
/-! ### A step completes on written operands, and takes its input (R37, R224, R243) -/

namespace Sys2Proof.Machine

open Sys2Proof.Slice0

section Pending

variable {s t : State}

/-- A command that completes has done no more to its state than an effect. -/
theorem exists_effect_of_exec {i : Instr} (h : exec i s = .next t) : ∃ e : Effect, t = e.apply s := by
  have hsame : sameReads i s s := by cases i <;> simp [sameReads]
  obtain ⟨e, ht, -⟩ := writeAlike_exec hsame t h
  exact ⟨e, ht⟩

/-- What is written to CMD leaves the inputs still to come (R13). -/
theorem issue_pending {code : Byte} (h : issue code s = .next t) : t.pending = s.pending := by
  obtain ⟨i, -, hexec⟩ | ⟨-, hillegal⟩ := issue_cases code s
  · obtain ⟨e, rfl⟩ := exists_effect_of_exec (hexec ▸ h)
    rfl
  · obtain rfl := Host.Outcome.next.inj (hillegal ▸ h)
    rfl

/-- No register holds the inputs still to come (R22). -/
@[simp] theorem storeReg_pending (s : State) (v : DWord) (r : Reg) : (storeReg s v r).pending = s.pending := by
  cases r <;> rfl

/-- An access leaves the inputs that come after it (R21). -/
theorem hostAccess_pending {a : Access} (h : hostAccess a s = .next t) : t.pending = s.pending := by
  obtain ⟨v, rfl⟩ | ⟨r, v, -, -, -, rfl⟩ | ⟨v, -, -, hissue⟩ | ⟨i, v, -, -, rfl⟩ | ⟨i, v, -, -, rfl⟩ := hostAccess_cases h
  · rfl
  · exact storeReg_pending s v r
  · exact issue_pending hissue
  · rfl
  · rfl

end Pending

section Fault

variable {s : State} {f : Fault}

/-- A command's code, as a byte sequence of its own, is that command and nothing after it (R71, R88). -/
theorem decode_of_decodeCode {code : Byte} {i : Instr} (h : decodeCode code = some i) : decode [code] = .ok (i, []) := by
  rw [eq_code_of_decodeCode h]
  exact decode_encode_append i []

/-- What is written to CMD faults only as the command it issues (R72, R224). -/
theorem issue_fault {code : Byte} (h : issue code s = .fault f) :
    ∃ i, decode [code] = .ok (i, []) ∧ exec i s = .fault f := by
  obtain ⟨i, hcode, hexec⟩ | ⟨-, hillegal⟩ := issue_cases code s
  · exact ⟨i, decode_of_decodeCode hcode, hexec ▸ h⟩
  · simp [hillegal] at h

/-- A register write faults only as the command it issues (R37, R57). -/
theorem hostWriteReg_fault {r : Reg} {v : DWord} (h : hostWriteReg r v s = .fault f) :
    ∃ i, r = .cmd ∧ decode [v.setWidth 8] = .ok (i, []) ∧ exec i s = .fault f := by
  unfold hostWriteReg at h
  split at h
  · simp at h
  · split at h
    · next hr =>
      obtain ⟨i, hdecode, hexec⟩ := issue_fault h
      exact ⟨i, hr, hdecode, hexec⟩
    · simp at h

/-- A host read of a buffer faults only at an unwritten element (R37). -/
theorem readAccess_fault {b : Buffer} {i : Nat} (h : hostAccess (b.readAccess i) s = .fault f) :
    s.isWritten b i = false := by
  rw [hostAccess_readAccess] at h
  unfold readElement at h
  split at h
  · split at h
    · simp at h
    · next hnone => cases b <;> simpa [State.element, State.isWritten] using hnone
  · simp at h

/-- An access faults only as the read of an unwritten element, or as the command it issues (R37, R224). -/
theorem hostAccess_fault {a : Access} (h : hostAccess a s = .fault f) :
    (∃ b i, a.readsElement = some (b, i) ∧ s.isWritten b i = false) ∨
    (∃ v i, a = .wr .cmd v ∧ decode [v.setWidth 8] = .ok (i, []) ∧ exec i s = .fault f) := by
  cases a with
  | rd r => simp only [hostAccess, hostReadReg] at h; split at h <;> simp at h
  | wr r v =>
    obtain ⟨i, rfl, hdecode, hexec⟩ := hostWriteReg_fault h
    exact .inr ⟨v, i, rfl, hdecode, hexec⟩
  | rdb i => exact .inl ⟨.fb, i, rfl, readAccess_fault h⟩
  | rdw i => exact .inl ⟨.wb, i, rfl, readAccess_fault h⟩
  | rdt i => exact .inl ⟨.tb, i, rfl, readAccess_fault h⟩
  | wrb i v => simp only [hostAccess, hostWriteFb] at h; split at h <;> simp at h
  | wrw i v => simp only [hostAccess, hostWriteWb] at h; split at h <;> simp at h
  | wrt i v => simp [hostAccess] at h
  | rdwByte i => simp [hostAccess] at h
  | wrwByte i v => simp [hostAccess] at h

end Fault

/-- The elements an access reads are written: the one a host read names (R37, R57), or the range of the command a write of CMD
issues (R70). -/
structure Access.OperandsWritten (a : Access) (s : State) : Prop where
  element : ∀ b i, a.readsElement = some (b, i) → s.isWritten b i = true
  range : ∀ v i b n, a = .wr .cmd v → decode [v.setWidth 8] = .ok (i, []) → readRangeOf i s = some (b, n) →
    ∀ k, k < n → s.isWritten b k = true

/-- An access on written operands does not fault (R37). -/
theorem hostAccess_ne_fault {a : Access} {s : State} (h : a.OperandsWritten s) (f : Fault) :
    hostAccess a s ≠ .fault f := by
  intro hfault
  obtain ⟨b, i, hreads, hunwritten⟩ | ⟨v, i, ha, hdecode, hexec⟩ := hostAccess_fault hfault
  · simp [h.element b i hreads] at hunwritten
  · obtain ⟨b, n, k, hrange, ⟨hk, hunwritten, -⟩, -⟩ := (exec_fault_iff i s f).1 hexec
    simp [h.range v i b n ha hdecode hrange k hk] at hunwritten

/-- A well-formed access on written operands completes: it is neither refused nor a fault (R56, R224). -/
theorem hostAccess_completes {a : Access} {s : State} (hwf : a.wf = true) (h : a.OperandsWritten s) :
    ∃ t, hostAccess a s = .next t := by
  cases hr : hostAccess a s with
  | next t => exact ⟨t, rfl⟩
  | fault f => exact absurd hr (hostAccess_ne_fault h f)
  | refused why => simp [(hostAccess_refused_iff a s).1 ⟨why, hr⟩] at hwf

/-- Settles O54: taking the input off `pending` writes no element and changes no command's range. That a reset leaves the inputs
after it is log 4. -/
theorem stepCompletesOnWrittenOperands : Obligations.StepCompletesOnWrittenOperands := by
  intro s e rest hp hsafe
  cases e with
  | reset => exact ⟨_, step_of_reset hp, rfl⟩
  | access a =>
    obtain ⟨hwf, helement, hrange⟩ := hsafe a rfl
    have hwritten : a.OperandsWritten { s with pending := rest } := ⟨helement, hrange⟩
    obtain ⟨t, ht⟩ := hostAccess_completes hwf hwritten
    exact ⟨t, (step_of_access hp).trans ht, hostAccess_pending ht⟩

end Sys2Proof.Machine
end

section
/-! ### Every register and every buffer after a reset (R22, R241) -/

namespace Sys2Proof.Machine

open Sys2Proof.Slice0

/-- Power-on and a reset event leave the same block; only the host's two lists may differ (R241; log 4). -/
theorem exists_resetBlock_eq {t : State}
    (h : t = State.reset ∨ ∃ s rest, s.pending = .reset :: rest ∧ step s = .next t) : ∃ s : State, t = s.resetBlock := by
  obtain rfl | ⟨s, rest, hp, hstep⟩ := h
  · exact ⟨State.reset, rfl⟩
  · rw [step_of_reset hp, Host.Outcome.next.injEq] at hstep
    exact ⟨{ s with pending := rest }, hstep.symm⟩

/-- After a reset DECODE of a supported, well-formed definition is InsufficientWords, as WCNT is 0 (R183, R241). -/
theorem execDecode_of_resetBlock (s : State) {d : Word} (hsupp : supportedDefinition d) (hwf : wellFormedDefinition d) :
    execDecode { s.resetBlock with defReg := d } =
      .next (State.setStatus { s.resetBlock with defReg := d } .insufficientWords) :=
  execDecode_of_noWords (State.resetBlock_wcnt s) hsupp hwf

/-- Settles O12: whatever the way to the reset, the block is a `State.resetBlock`, whose registers are those of the table and whose
buffers are empty. -/
theorem resetGivesTheTabledValues : Obligations.ResetGivesTheTabledValues := by
  intro t h
  obtain ⟨s, rfl⟩ := exists_resetBlock_eq h
  exact ⟨rfl, rfl, rfl, rfl, rfl, rfl, rfl, rfl, rfl, rfl, rfl, rfl, rfl, rfl, rfl, rfl, rfl,
    Memory.read_nil, Memory.read_nil, Memory.read_nil, fun _ => execDecode_of_resetBlock s⟩

end Sys2Proof.Machine
end
